-- ==== Sys2Proof/Word.lean ====
section
/-!
DEFINITION. The three word types of the spec (00_scope.md R11): all values are unsigned, bit 0 is the
least significant bit.
-/

namespace Sys2Proof

/-- `u8`: an operand `a`, a byte of a buffer or of the line, a response code. -/
abbrev Byte := BitVec 8

/-- `u16`: an operand `b`, the CRC register, a Modbus register. -/
abbrev Half := BitVec 16

/-- `u32`: a command word, the data of a response. -/
abbrev Word := BitVec 32

end Sys2Proof
end

