-- ==== Sys2Proof/Syntax.lean ====
section
/-!
DEFINITION. The instructions (one constructor per row of spec/opcode_table.json), the carriers they
arrive on, and the moves the agents of 00_scope.md R16 can make.
-/

namespace Sys2Proof

/-- One constructor per row of the opcode table: the fifteen commands of 30_encoding.md R75, with the
operands R72 says are used, and the three wire formats of R78, R79, R80. -/
inductive Instr where
  /-- `NOP`, 44_system.md R170. -/
  | nop
  /-- `RD_STAT`, 44_system.md R172. -/
  | rdStat
  /-- `CRC_INIT`, 40_crc.md R102. -/
  | crcInit
  /-- `CRC_BYTE a`, 40_crc.md R103. -/
  | crcByte (a : Byte)
  /-- `CRC_RD`, 40_crc.md R104. -/
  | crcRd
  /-- `BLD_REQ a, b`: slave ID, start address, 41_codec.md R111. -/
  | bldReq (a : Byte) (b : Half)
  /-- `PRS_RSP a`: expected slave ID, accepted and ignored, 41_codec.md R115, R116. -/
  | prsRsp (a : Byte)
  /-- `TB_RD a`: index into the transmit buffer, 41_codec.md R119. -/
  | tbRd (a : Byte)
  /-- `RB_RD a`: index into the response buffer, 41_codec.md R120. -/
  | rbRd (a : Byte)
  /-- `TX_CLR`, 41_codec.md R121. -/
  | txClr
  /-- `TX_PUT a`: the byte to append, 41_codec.md R122. -/
  | txPut (a : Byte)
  /-- `TR_FLUSH`, 42_transport.md R131. -/
  | trFlush
  /-- `TR_WRITE`, 42_transport.md R132. -/
  | trWrite
  /-- `TR_READ a, b`: most bytes, timeout in ticks, 42_transport.md R135. -/
  | trRead (a : Byte) (b : Half)
  /-- `XCHG a, b`: slave ID, start address, 43_exchange.md R160. -/
  | xchg (a : Byte) (b : Half)
  /-- `REQ_FRAME`: the 8-byte request frame on the line, 30_encoding.md R78. -/
  | reqFrame (slaveId : Byte) (startAddress : Half) (crc : Half)
  /-- `RSP_FRAME`: the first 7 bytes of a response on the line, 30_encoding.md R79. -/
  | rspFrame (slaveId function byteCount : Byte) (regHigh regLow : Half)
  /-- `SERIAL_CHAR`: one character on the line, 30_encoding.md R80. -/
  | serialChar (v : Byte)
deriving DecidableEq, Repr, Inhabited

/-- What the line carries to `rxd`: the ten bits of one character, first bit in time the most significant
(30_encoding.md R80), or the bytes of consecutive characters, first sent first, which arrive one at a time. -/
inductive LineItem where
  | char (bits : BitVec 10)
  | frame (bytes : List Byte)
deriving DecidableEq, Repr, Inhabited

/-- Where an instruction's bits stand: a command word at the command port (30_encoding.md R71, R85) or
an item on the serial line. -/
inductive Parcel where
  | word (w : Word)
  | line (item : LineItem)
deriving DecidableEq, Repr, Inhabited

/-- The next agent to move (00_scope.md R16, 20_memory.md R60), and the two edges of the reset input
(70_reset_and_hazards.md R200). A move that its agent cannot make changes nothing. -/
inductive Move where
  /-- The host takes the response if there is one, else issues a command if the block is ready. -/
  | host
  /-- The sequencer makes its enabled step, if any. -/
  | seq
  /-- The line carries an item: its character, or the first byte of its frame, arrives. -/
  | line (item : LineItem)
  /-- The next byte of a frame that stands on the line arrives. -/
  | wire
  /-- The tick source fires. -/
  | tick
  /-- `rst` is asserted. -/
  | reset
  /-- `rst` is released. -/
  | release
deriving DecidableEq, Repr, Inhabited

end Sys2Proof
end

