-- ==== Sys2Proof/Config.lean ====
section
/-!
DEFINITION. The parameters of 00_scope.md R9: the fixed ones as constants, the four an implementation
chooses as a record of plain data, the two OPEN ones and the free values as constants with no body.
-/

namespace Sys2Proof

/-- The parameters an implementation fixes (00_scope.md R9, 92_eei_decisions.md D7, D12). The default
of each field is R9's value column. -/
structure Params where
  /-- `XMAX`: most bytes the read of an `XCHG` takes. -/
  xmax : Nat := 9
  /-- `TXCAP`: capacity of the transmit buffer. -/
  txcap : Nat := 8
  /-- `RXCAP`: capacity of the response buffer. -/
  rxcap : Nat := 16
  /-- `RXDEPTH`: capacity of the pending-input queue. -/
  rxdepth : Nat := 16
deriving DecidableEq, Repr

namespace Config

/-- `FC_READ` (R9). -/
def fcRead : Byte := 0x03#8
/-- `REG_COUNT` (R9). -/
def regCount : Half := 0x0002#16
/-- `REQ_LEN` (R9). -/
def reqLen : Nat := 8
/-- `RSP_MIN` (R9). -/
def rspMin : Nat := 7
/-- `CRC_INIT_VALUE` (R9). -/
def crcInitValue : Half := 0xFFFF#16
/-- `CRC_POLY` (R9). -/
def crcPoly : Half := 0xA001#16
/-- `T_RESP` in milliseconds (R9). -/
def tRespMs : Nat := 100
/-- `TICK` in milliseconds (R9). -/
def tickMs : Nat := 1
/-- `T_RESP_TICKS = T_RESP / TICK` (R9, 43_exchange.md R161). -/
def tRespTicks : Half := BitVec.ofNat 16 (tRespMs / tickMs)

/-- The constraint column of R9 for the four parameters of `Params`. -/
abbrev Valid (p : Params) : Prop :=
  rspMin ≤ p.xmax ∧ p.xmax ≤ p.rxcap ∧ p.rxcap ≤ 255 ∧
  reqLen ≤ p.txcap ∧ p.txcap ≤ 255 ∧ 1 ≤ p.rxdepth

/-- `BAUD`, OPEN (R9); no rule depends on it. -/
opaque baud : Nat
/-- `F_CLK`, OPEN (R9); no rule depends on it. -/
opaque fClk : Nat

/-- FREE VALUE: which agent moves when the state's schedule is used up (00_scope.md R16: the choice of
which enabled agent moves next is not state; 20_memory.md R60: any enabled step may be next). -/
opaque freeMove : Nat → Move
/-- FREE VALUE: the word the host issues when no program is placed (60_exceptions.md R194: the host may
issue any word, in any order). -/
opaque freeWord : Nat → Word
/-- FREE VALUE: what the receiver makes of a malformed character (42_transport.md R143): no line step,
or a line step with some byte. -/
opaque malformed : Nat → Option Byte

end Config

end Sys2Proof
end

