-- ==== Sys2Proof/Machine/Bits.lean ====
section
/-!
DEFINITION. The byte and bit helpers of 00_scope.md R12 and the bit order of a character
(20_memory.md R54).
-/

namespace Sys2Proof

/-- `hi8(w) = w[15:8]` (R12). -/
def hi8 (w : Half) : Byte := w.extractLsb' 8 8

/-- `lo8(w) = w[7:0]` (R12). -/
def lo8 (w : Half) : Byte := w.extractLsb' 0 8

/-- `be16(x, y) = {x, y}`: the big-endian reading of two bytes (R12). -/
def be16 (x y : Byte) : Half := x ++ y

/-- The eight bits of a byte in the other order: a character sends the least significant bit first
(20_memory.md R54). -/
def reverseBits (v : Byte) : Byte :=
  v.extractLsb' 0 1 ++ v.extractLsb' 1 1 ++ v.extractLsb' 2 1 ++ v.extractLsb' 3 1 ++
  v.extractLsb' 4 1 ++ v.extractLsb' 5 1 ++ v.extractLsb' 6 1 ++ v.extractLsb' 7 1

/-- The `n` bytes of a number, most significant first: how the opcode table numbers the bits of a frame
(its byte 0 is the leftmost). -/
def bytesOfNat : Nat → Nat → List Byte
  | 0, _ => []
  | n + 1, w => BitVec.ofNat 8 (w / 2 ^ (8 * n)) :: bytesOfNat n w

end Sys2Proof
end

