-- ==== Sys2Proof/Machine/Frames.lean ====
section
/-!
DEFINITION. The pure functions of the CRC engine and of the frame codec: 40_crc.md R100, R101,
41_codec.md R110, R113, and the frame layouts of 30_encoding.md R78, R79.
-/

namespace Sys2Proof

/-- The bit step `crc_bit` (R100). -/
def crcBit (r : Half) : Half :=
  if r.getLsbD 0 then (r >>> 1) ^^^ Config.crcPoly else r >>> 1

/-- The byte step `crc_byte` (R101): exclusive-or into the low byte, then eight bit steps. -/
def crcByte (r : Half) (v : Byte) : Half :=
  crcBit (crcBit (crcBit (crcBit (crcBit (crcBit (crcBit (crcBit (r ^^^ v.setWidth 16))))))))

/-- The whole function `crc16` (R101). -/
def crc16 (bytes : List Byte) : Half := bytes.foldl crcByte Config.crcInitValue

/-- Bytes 0 to 5 of a request frame (R78). -/
def requestHead (slaveId : Byte) (startAddress : Half) : List Byte :=
  [slaveId, Config.fcRead, hi8 startAddress, lo8 startAddress, hi8 Config.regCount, lo8 Config.regCount]

/-- The CRC of a request (R78, R110). -/
def requestCrc (slaveId : Byte) (startAddress : Half) : Half :=
  crc16 (requestHead slaveId startAddress)

/-- The eight bytes of a request frame with a given CRC field, low byte first (R78). -/
def requestFrame (slaveId : Byte) (startAddress crc : Half) : List Byte :=
  requestHead slaveId startAddress ++ [lo8 crc, hi8 crc]

/-- `build_req` (R110). -/
def buildReq (slaveId : Byte) (startAddress : Half) : List Byte :=
  requestFrame slaveId startAddress (requestCrc slaveId startAddress)

/-- The first seven bytes of a response (R79). -/
def responseFrame (slaveId function byteCount : Byte) (regHigh regLow : Half) : List Byte :=
  [slaveId, function, byteCount, hi8 regHigh, lo8 regHigh, hi8 regLow, lo8 regLow]

/-- `parse_rsp` (R113): the register pair at offsets 3 to 6, `none` for a buffer of fewer than seven
bytes. -/
def parseRsp : List Byte → Option (Half × Half)
  | _ :: _ :: _ :: b3 :: b4 :: b5 :: b6 :: _ => some (be16 b3 b4, be16 b5 b6)
  | _ => none

end Sys2Proof
end

