-- ==== Sys2Proof/WellFormed.lean ====
section
/-!
DEFINITION. Which terms of `Instr` are instructions of the spec. Every operand of a command is legal
(30_encoding.md R72; an index or count out of range is an error response, not an ill-formed command).
The one field with a prescribed value is the CRC of a request frame (R78).
-/

namespace Sys2Proof

/-- The CRC field of a request frame is the CRC of its first six bytes (30_encoding.md R78); nothing else
is constrained. -/
def Instr.wellFormed : Instr → Bool
  | .nop | .rdStat | .crcInit | .crcByte _ | .crcRd | .bldReq _ _ | .prsRsp _ | .tbRd _ | .rbRd _
  | .txClr | .txPut _ | .trFlush | .trWrite | .trRead _ _ | .xchg _ _ => true
  | .reqFrame slaveId startAddress crc => crc == requestCrc slaveId startAddress
  | .rspFrame _ _ _ _ _ => true
  | .serialChar _ => true

end Sys2Proof
end

