-- ==== Sys2Proof/Decode.lean ====
section
/-!
DEFINITION. The decoder, total on every word, every list of bytes and every ten bits, and after it the
encoder, both from 30_encoding.md R71, R75 to R80.
-/

namespace Sys2Proof

/-- Why a parcel is no instruction of the table. -/
inductive DecodeError where
  /-- `op` is none of the fifteen (R76); the block answers `ILLEGAL_CMD`. -/
  | illegalOp (op : Byte)
  /-- Eight bytes that are not a request frame (R78); the line still delivers them. -/
  | notRequest
  /-- A number of bytes that is no frame of the table; the line still delivers them. -/
  | frameLength (n : Nat)
  /-- The start bit is not 0 or the stop bit not 1 (R80, 42_transport.md R143). -/
  | badCharacter
deriving DecidableEq, Repr

/-- A command word (R71, R75): `op` selects, `a` and `b` are taken as they stand, unused fields are
ignored (R77). -/
def decodeCommand (w : Word) : Except DecodeError Instr :=
  let a : Byte := w.extractLsb' 16 8
  let b : Half := w.extractLsb' 0 16
  match w.extractLsb' 24 8 with
  | 0x00#8 => .ok .nop
  | 0x01#8 => .ok .rdStat
  | 0x10#8 => .ok .crcInit
  | 0x11#8 => .ok (.crcByte a)
  | 0x12#8 => .ok .crcRd
  | 0x20#8 => .ok (.bldReq a b)
  | 0x21#8 => .ok (.prsRsp a)
  | 0x22#8 => .ok (.tbRd a)
  | 0x23#8 => .ok (.rbRd a)
  | 0x24#8 => .ok .txClr
  | 0x25#8 => .ok (.txPut a)
  | 0x30#8 => .ok .trFlush
  | 0x31#8 => .ok .trWrite
  | 0x32#8 => .ok (.trRead a b)
  | 0x40#8 => .ok (.xchg a b)
  | op => .error (.illegalOp op)

/-- Bytes of consecutive characters: eight with the fixed fields of R78 are a request frame, any seven
the head of a response (R79, no bit is checked). -/
def decodeFrame : List Byte → Except DecodeError Instr
  | [s, f, ah, al, ch, cl, pl, ph] =>
    if f = Config.fcRead ∧ be16 ch cl = Config.regCount then .ok (.reqFrame s (be16 ah al) (be16 ph pl))
    else .error .notRequest
  | [s, f, n, hh, hl, lh, ll] => .ok (.rspFrame s f n (be16 hh hl) (be16 lh ll))
  | bs => .error (.frameLength bs.length)

/-- The ten bits of a character, first bit in time the most significant: start bit 0, `d0` to `d7`, stop
bit 1 (R80). -/
def decodeChar (bits : BitVec 10) : Except DecodeError Instr :=
  if bits.getLsbD 9 = false ∧ bits.getLsbD 0 = true then
    .ok (.serialChar (reverseBits (bits.extractLsb' 1 8)))
  else .error .badCharacter

/-- The decoder. The port an item arrives at is known, so the three encodings never meet. -/
def decode : Parcel → Except DecodeError Instr
  | .word w => decodeCommand w
  | .line (.frame bytes) => decodeFrame bytes
  | .line (.char bits) => decodeChar bits

/-- A command word from its three fields (R71). -/
def commandWord (op a : Byte) (b : Half) : Word := op ++ a ++ b

/-- The ten bits of the character of a byte (R80). -/
def charBits (v : Byte) : BitVec 10 := 0#1 ++ reverseBits v ++ 1#1

/-- The encoder; unused fields of a command are 0, as the assembler writes them (R77). -/
def encode : Instr → Parcel
  | .nop => .word (commandWord 0x00#8 0 0)
  | .rdStat => .word (commandWord 0x01#8 0 0)
  | .crcInit => .word (commandWord 0x10#8 0 0)
  | .crcByte a => .word (commandWord 0x11#8 a 0)
  | .crcRd => .word (commandWord 0x12#8 0 0)
  | .bldReq a b => .word (commandWord 0x20#8 a b)
  | .prsRsp a => .word (commandWord 0x21#8 a 0)
  | .tbRd a => .word (commandWord 0x22#8 a 0)
  | .rbRd a => .word (commandWord 0x23#8 a 0)
  | .txClr => .word (commandWord 0x24#8 0 0)
  | .txPut a => .word (commandWord 0x25#8 a 0)
  | .trFlush => .word (commandWord 0x30#8 0 0)
  | .trWrite => .word (commandWord 0x31#8 0 0)
  | .trRead a b => .word (commandWord 0x32#8 a b)
  | .xchg a b => .word (commandWord 0x40#8 a b)
  | .reqFrame s addr c => .line (.frame (requestFrame s addr c))
  | .rspFrame s f n h l => .line (.frame (responseFrame s f n h l))
  | .serialChar v => .line (.char (charBits v))

/-- How the bits of an opcode-table row arrive, by the number of bits the table gives it: a character
(10, in whole bytes 16), a command word (32), a response head (56), a request frame (64). The leftmost
byte of a frame, in the most significant bits, is sent first. -/
def tableParcel (nbits w : Nat) : Parcel :=
  if nbits ≤ 16 then .line (.char (BitVec.ofNat 10 w))
  else if nbits ≤ 32 then .word (BitVec.ofNat 32 w)
  else if nbits ≤ 56 then .line (.frame (bytesOfNat 7 w))
  else .line (.frame (bytesOfNat 8 w))

/-- The instruction the decoder reads from the bits of an opcode-table row; a number with more bits than
its row's width is none. -/
def decodeTableWord (nbits w : Nat) : Option Instr :=
  if 2 ^ (if nbits ≤ 16 then 10 else nbits) ≤ w then none
  else (decode (tableParcel nbits w)).toOption

end Sys2Proof
end

