-- ==== Sys2Proof/Machine/State.lean ====
section
/-!
DEFINITION. The state record of 10_state.md R20, the event history of 00_scope.md R15, the level of the
reset input (30_encoding.md R85), and the model's own fields: the parameters, the host's program, the
bytes the line still carries, the schedule of moves and the counter of free values. All of it is plain data.
-/

namespace Sys2Proof.Machine

open Sys2Proof

/-- `phase` (R31). -/
inductive Phase where
  | idle
  | tx
  | rx
deriving DecidableEq, Repr

/-- `cur`: the multi-step command in progress (R32). -/
inductive Cur where
  | none
  | write
  | read
  | xchg
deriving DecidableEq, Repr

/-- A posted response `(code, data)` (30_encoding.md R73). -/
structure Response where
  code : Byte
  data : Word
deriving DecidableEq, Repr

/-- What an outside observer can see (00_scope.md R15). -/
inductive Event where
  /-- A command word was accepted. -/
  | cmd (word : Word)
  /-- The host took a response. -/
  | rsp (code : Byte) (data : Word)
  /-- A byte was emitted, its whole character having left `txd`. -/
  | tx (v : Byte)
  /-- The line delivered a byte; `kept` is false when it was dropped. -/
  | rx (v : Byte) (kept : Bool)
  /-- The tick source fired. -/
  | tick
  /-- Reset was applied. -/
  | reset
deriving DecidableEq, Repr

/-- Why the machine stops with a fault: never (60_exceptions.md R196, "Fault: none; the block has no state
from which it cannot go on"). No constructor, so nobody raises one. -/
inductive Fault where
deriving DecidableEq, Repr

/-- Why an instruction has no meaning. -/
inductive Refusal where
  /-- An arm of `exec` whose instruction has no meaning yet; no arm raises it. Safe: the machine stops. -/
  | notModelled (mnemonic : String)
deriving DecidableEq, Repr

/-- The state. `txbuf` and `rbuf` hold their valid bytes only, so `txlen` and `rlen` are the lengths of
those lists (R26, R29: bytes beyond the length have no value and cannot be observed). -/
structure State where
  /-- MODEL'S OWN: the parameters (00_scope.md R9); no step writes them. -/
  cfg : Params
  /-- The running CRC register (R23). -/
  crc : Half
  /-- The valid bytes of the transmit buffer, index 0 first (R25). -/
  txbuf : List Byte
  /-- The pending input, oldest byte first (R27). -/
  rxq : List Byte
  /-- A received byte was dropped since the last flush (R28). -/
  ovr : Bool
  /-- The valid bytes of the response buffer, index 0 first (R29). -/
  rbuf : List Byte
  /-- The last read ended because its timer ran out (R30). -/
  tmo : Bool
  /-- Where the sequencer stands (R31). -/
  phase : Phase
  /-- Which multi-step command is in progress (R32). -/
  cur : Cur
  /-- Index of the next byte to emit (R33). -/
  txi : Nat
  /-- Byte count the read in progress asks for (R34). -/
  rmax : Nat
  /-- Ticks left for the read in progress (R34). -/
  timer : Half
  /-- The response posted and not yet taken (R36). -/
  rsp : Option Response
  /-- The reset input is asserted (30_encoding.md R85). -/
  rst : Bool
  /-- The history of 00_scope.md R15, newest event first; nothing in the block reads it. -/
  events : List Event
  /-- MODEL'S OWN: the command words the host still wants to issue, next one first (R22, 30_encoding.md
  R82); when it is empty the host issues a free word. -/
  program : List Word
  /-- MODEL'S OWN: the bytes of frames the line carries that have not arrived yet, next one first (20_memory.md
  R60 (e): the line delivers one byte at a time). -/
  wire : List Byte
  /-- MODEL'S OWN: the moves to come, next one first (00_scope.md R16); when it is empty the next move is
  free. -/
  schedule : List Move
  /-- MODEL'S OWN: how many free values have been drawn from Config. -/
  draws : Nat
deriving DecidableEq, Repr

/-- `txlen` (R25). -/
def State.txlen (s : State) : Nat := s.txbuf.length

/-- `rlen` (R29). -/
def State.rlen (s : State) : Nat := s.rbuf.length

/-- The machine right after reset (R42, 70_reset_and_hazards.md R200), with the default parameters of
00_scope.md R9, no program placed, no frame on the line and no move scheduled. -/
def State.reset : State where
  cfg := {}
  crc := 0xFFFF#16
  txbuf := []
  rxq := []
  ovr := false
  rbuf := []
  tmo := false
  phase := .idle
  cur := .none
  txi := 0
  rmax := 0
  timer := 0#16
  rsp := none
  rst := false
  events := []
  program := []
  wire := []
  schedule := []
  draws := 0

/-- The canonical form of the three byte stores (20_memory.md R50): each is the list of its valid bytes, no
longer than its capacity (00_scope.md R9). -/
abbrev Memory.wf (s : State) : Prop :=
  s.txbuf.length ≤ s.cfg.txcap ∧ s.rbuf.length ≤ s.cfg.rxcap ∧ s.rxq.length ≤ s.cfg.rxdepth

end Sys2Proof.Machine
end

