-- ==== Sys2Proof/Machine/Flags.lean ====
section
/-!
DEFINITION. The flags and the words made of them: `tmo` at the end of a read (42_transport.md R139), the
status word (10_state.md R37, 44_system.md R172) and the data of a read (30_encoding.md R73).
-/

namespace Sys2Proof.Machine

open Sys2Proof

/-- The value `tmo` takes when a read ends (R139). -/
def readTimedOut (s : State) : Bool := decide (s.rlen < s.rmax)

/-- `STAT`: reserved, `OVR`, `TMO`, `RXPEND`, `TXLEN`, `RLEN`, from bit 31 down (R37). -/
def statWord (s : State) : Word :=
  (0#6 ++ BitVec.ofBool s.ovr ++ BitVec.ofBool s.tmo ++ BitVec.ofNat 8 (min s.rxq.length 255) ++
    BitVec.ofNat 8 s.txlen ++ BitVec.ofNat 8 s.rlen : BitVec 32)

/-- The data of a finished read: `zext_32(rlen) | (tmo << 8)` (R139). -/
def readData (s : State) : Word :=
  BitVec.ofNat 32 s.rlen ||| ((BitVec.ofBool s.tmo).setWidth 32 <<< 8)

end Sys2Proof.Machine
end

