-- ==== Sys2Proof/Machine/Operands.lean ====
section
/-!
DEFINITION. The operand forms: a direct 8-bit index into a buffer and a byte count (30_encoding.md R72,
20_memory.md R51). Operands are unsigned and used as they stand.
-/

namespace Sys2Proof.Machine

open Sys2Proof

/-- `MemRead(buf, i)` (00_scope.md R13) at the index an operand names; `none` when the index is not below
the buffer's length (20_memory.md R51). -/
def memRead (buf : List Byte) (a : Byte) : Option Byte := buf[a.toNat]?

/-- `MemWrite(buf, len, v)` at the first index that is not valid, which makes it valid (41_codec.md R122,
42_transport.md R141). -/
def memAppend (buf : List Byte) (v : Byte) : List Byte := buf ++ [v]

/-- The byte count of `TR_READ` is legal (20_memory.md R51). -/
def countLegal (cfg : Params) (a : Byte) : Bool := decide (a.toNat ≤ cfg.rxcap)

end Sys2Proof.Machine
end

