-- ==== Sys2Proof/Machine/Ops.lean ====
section
/-!
DEFINITION. The shared operations: the command port (30_encoding.md R70, R73, R85), the error form of a
response (60_exceptions.md R180; the block has no trap, R186, so this stands where another machine takes
an exception), the buffer operations, and the atomic steps of 20_memory.md R60 other than a command's
accept step.
-/

namespace Sys2Proof.Machine

open Sys2Proof

/-! ### Response codes (60_exceptions.md R180) -/

/-- `OK`. -/
def codeOk : Byte := 0x00#8
/-- `SHORT_RESPONSE`. -/
def codeShortResponse : Byte := 0x01#8
/-- `ILLEGAL_CMD`. -/
def codeIllegalCmd : Byte := 0x02#8
/-- `BAD_OPERAND`. -/
def codeBadOperand : Byte := 0x03#8

/-! ### The ports (30_encoding.md R85) -/

/-- `cmd_ready`: 1 exactly when `phase = IDLE` and `rsp` is empty (R70, R85). -/
def cmdReady (s : State) : Bool := decide (s.phase = .idle) && s.rsp.isNone
/-- `rsp_valid`: 1 exactly when `rsp` is full (R85). -/
def rspValid (s : State) : Bool := s.rsp.isSome
/-- `rsp_code`, while `rsp_valid` (R85). -/
def rspCode (s : State) : Option Byte := s.rsp.map Response.code
/-- `rsp_data`, while `rsp_valid` (R85). -/
def rspData (s : State) : Option Word := s.rsp.map Response.data

/-- The block accepts a command: it is ready and not held in reset (R70, 70_reset_and_hazards.md R200). -/
def canAccept (s : State) : Bool := cmdReady s && !s.rst

/-! ### Recording and responding -/

/-- Adds an event to the history (00_scope.md R15). -/
def record (e : Event) (s : State) : State := { s with events := e :: s.events }

/-- `respond(code, data)` (00_scope.md R14). -/
def respond (code : Byte) (data : Word) (s : State) : State := { s with rsp := some ⟨code, data⟩ }

/-- `raise BadOperand(0)`: the error response, the state otherwise as it was (60_exceptions.md R182). -/
def raiseBadOperand (s : State) : State := respond codeBadOperand 0#32 s

/-- `raise IllegalCmd(0)` (60_exceptions.md R181). -/
def raiseIllegalCmd (s : State) : State := respond codeIllegalCmd 0#32 s

/-- `raise ShortResponse(zext_32(rlen))` (41_codec.md R115). -/
def raiseShortResponse (s : State) : State := respond codeShortResponse (BitVec.ofNat 32 s.rlen) s

/-- The accept step of a command (20_memory.md R60 (a)): `work` runs when the block accepts; when it does
not, the host is held and nothing happens (30_encoding.md R70). -/
def accept (work : State → State) (s : State) : Host.Outcome State Fault Refusal :=
  .next (if canAccept s then work s else s)

/-! ### The codec's operations -/

/-- Puts a request frame into the transmit buffer and leaves its CRC in `crc` (41_codec.md R111, R112). -/
def loadRequest (slaveId : Byte) (startAddress : Half) (s : State) : State :=
  { s with txbuf := buildReq slaveId startAddress, crc := requestCrc slaveId startAddress }

/-- Responds with the parse of the response buffer (41_codec.md R113 to R115). -/
def respondParse (s : State) : State :=
  match parseRsp s.rbuf with
  | some (regHigh, regLow) => respond codeOk (regHigh ++ regLow) s
  | none => raiseShortResponse s

/-- Responds with the byte of a buffer at an index, or with `BAD_OPERAND` (41_codec.md R119, R120). -/
def respondByte (buf : List Byte) (a : Byte) (s : State) : State :=
  match memRead buf a with
  | some v => respond codeOk (v.setWidth 32) s
  | none => raiseBadOperand s

/-! ### The transport's operations -/

/-- The flush: empties the pending input and clears `ovr` (42_transport.md R131). -/
def flush (s : State) : State := { s with rxq := [], ovr := false }

/-- Start of the `TX` phase (42_transport.md R132, 43_exchange.md R160). -/
def beginTx (cur : Cur) (s : State) : State := { s with cur := cur, txi := 0, phase := .tx }

/-- `begin_rx(max, ticks)` (42_transport.md R136): takes what is pending, oldest byte first, up to `max`. -/
def beginRx (max : Nat) (ticks : Half) (s : State) : State :=
  { s with tmo := false, rmax := max, timer := ticks, rbuf := s.rxq.take max, rxq := s.rxq.drop max, phase := .rx }

/-- The multi-step command is over: `phase <- IDLE; cur <- NONE` (R134, R139, 43_exchange.md R163). -/
def endCommand (s : State) : State := { s with phase := .idle, cur := .none }

/-! ### The sequencer's steps -/

/-- End of `TX` (42_transport.md R134, 43_exchange.md R162). -/
def endTx (s : State) : State :=
  match s.cur with
  | .write => respond codeOk 0#32 (endCommand s)
  | _ => beginRx s.cfg.xmax Config.tRespTicks s

/-- End of `RX` (42_transport.md R139, 43_exchange.md R163). -/
def endRx (s : State) : State :=
  let s := { s with tmo := readTimedOut s }
  match s.cur with
  | .read => respond codeOk (readData s) (endCommand s)
  | _ => respondParse (endCommand s)

/-- The enabling condition of the end-of-`RX` step (42_transport.md R139). -/
def readDone (s : State) : Bool := decide (s.rlen = s.rmax) || decide (s.timer = 0#16)

/-- The sequencer's move: the one step of R133, R134, R139 that is enabled, or none. -/
def seqStep (s : State) : State :=
  if s.rst then s
  else
    match s.phase with
    | .idle => s
    | .tx =>
      match s.txbuf[s.txi]? with
      | some v => { record (.tx v) s with txi := s.txi + 1 }
      | none => if s.txi = s.txlen then endTx s else s
    | .rx => if readDone s then endRx s else s

/-! ### The line, the tick and the reset -/

/-- The line step: the line delivers one byte (42_transport.md R141); while `rst` is asserted the byte is
not received (70_reset_and_hazards.md R200). -/
def lineStep (v : Byte) (s : State) : State :=
  if s.rst then s
  else if s.phase = .rx ∧ s.rlen < s.rmax then record (.rx v true) { s with rbuf := memAppend s.rbuf v }
  else if s.rxq.length < s.cfg.rxdepth then record (.rx v true) { s with rxq := memAppend s.rxq v }
  else record (.rx v false) { s with ovr := true }

/-- The line begins to carry a frame: the line step of its first byte; the other bytes stand on the line, in
front of whatever stood there. -/
def carry (bytes : List Byte) (s : State) : State :=
  match bytes with
  | v :: rest => lineStep v { s with wire := rest ++ s.wire }
  | [] => s

/-- The line step of the next byte that stands on the line, if any (20_memory.md R60 (e)). -/
def wireStep (s : State) : State :=
  match s.wire with
  | v :: rest => lineStep v { s with wire := rest }
  | [] => s

/-- The tick step (42_transport.md R142). -/
def tickStep (s : State) : State :=
  if s.rst then s
  else
    let s := record .tick s
    if s.phase = .rx ∧ s.timer ≠ 0#16 then { s with timer := s.timer - 1#16 } else s

/-- The reset step (70_reset_and_hazards.md R200): every element of R20 at its reset value, `rst` asserted,
the event recorded; the parameters, the history and what the other agents still want to do are not the
block's to reset. -/
def resetStep (s : State) : State :=
  { State.reset with
    cfg := s.cfg, rst := true, events := .reset :: s.events,
    program := s.program, wire := s.wire, schedule := s.schedule, draws := s.draws }

/-- `rst` is released; the receiver listens at once (70_reset_and_hazards.md R203). -/
def releaseStep (s : State) : State := { s with rst := false }

/-- The host takes the response (30_encoding.md R74). -/
def takeResponse (r : Response) (s : State) : State := record (.rsp r.code r.data) { s with rsp := none }

/-- What the line does with an item that is no instruction of the table: its bytes are carried all the same
(R141, any value); a malformed character is no line step or one with a free value (R143). -/
def lineNoise (item : LineItem) (s : State) : State :=
  match item with
  | .frame bytes => carry bytes s
  | .char _ =>
    match Config.malformed s.draws with
    | some v => lineStep v { s with draws := s.draws + 1 }
    | none => { s with draws := s.draws + 1 }

end Sys2Proof.Machine
end

