-- ==== Sys2Proof/Machine/CodecCmds.lean ====
section
/-!
DEFINITION. The meanings of the frame codec's commands and of the buffer access commands (41_codec.md).
-/

namespace Sys2Proof.Machine

open Sys2Proof

/-- `BLD_REQ a, b` (R111, R112). -/
def execBldReq (a : Byte) (b : Half) (s : State) : Host.Outcome State Fault Refusal :=
  accept (fun s => respond codeOk 0#32 (loadRequest a b s)) s

/-- `PRS_RSP a` (R115); the expected slave ID has no effect (R116). -/
def execPrsRsp (_a : Byte) (s : State) : Host.Outcome State Fault Refusal := accept respondParse s

/-- `TB_RD a` (R119). -/
def execTbRd (a : Byte) (s : State) : Host.Outcome State Fault Refusal :=
  accept (fun s => respondByte s.txbuf a s) s

/-- `RB_RD a` (R120). -/
def execRbRd (a : Byte) (s : State) : Host.Outcome State Fault Refusal :=
  accept (fun s => respondByte s.rbuf a s) s

/-- `TX_CLR` (R121): `txlen <- 0`, after which no byte of the buffer is valid. -/
def execTxClr (s : State) : Host.Outcome State Fault Refusal :=
  accept (fun s => respond codeOk 0#32 { s with txbuf := [] }) s

/-- `TX_PUT a` (R122). -/
def execTxPut (a : Byte) (s : State) : Host.Outcome State Fault Refusal :=
  accept (fun s =>
    if s.txlen < s.cfg.txcap then respond codeOk 0#32 { s with txbuf := memAppend s.txbuf a }
    else raiseBadOperand s) s

end Sys2Proof.Machine
end

