-- ==== Sys2Proof/Machine/CrcCmds.lean ====
section
/-!
DEFINITION. The meanings of the CRC engine's commands (40_crc.md).
-/

namespace Sys2Proof.Machine

open Sys2Proof

/-- `CRC_INIT` (R102). -/
def execCrcInit (s : State) : Host.Outcome State Fault Refusal :=
  accept (fun s => respond codeOk 0#32 { s with crc := Config.crcInitValue }) s

/-- `CRC_BYTE a` (R103). -/
def execCrcByte (a : Byte) (s : State) : Host.Outcome State Fault Refusal :=
  accept (fun s => respond codeOk 0#32 { s with crc := crcByte s.crc a }) s

/-- `CRC_RD` (R104). -/
def execCrcRd (s : State) : Host.Outcome State Fault Refusal :=
  accept (fun s => respond codeOk (s.crc.setWidth 32) s) s

end Sys2Proof.Machine
end

