-- ==== Sys2Proof/Machine/ExchangeCmds.lean ====
section
/-!
DEFINITION. The meaning of the exchange (43_exchange.md): what its accept step does. The sequencer, line
and tick steps of Machine/Ops.lean carry it through `TX` and `RX` to its response.
-/

namespace Sys2Proof.Machine

open Sys2Proof

/-- `XCHG a, b` (R160): build, flush, start of `TX`. -/
def execXchg (a : Byte) (b : Half) (s : State) : Host.Outcome State Fault Refusal :=
  accept (fun s => beginTx .xchg (flush (loadRequest a b s))) s

end Sys2Proof.Machine
end

