-- ==== Sys2Proof/Machine/SystemCmds.lean ====
section
/-!
DEFINITION. The meanings of the system commands (44_system.md).
-/

namespace Sys2Proof.Machine

open Sys2Proof

/-- `NOP` (R170). -/
def execNop (s : State) : Host.Outcome State Fault Refusal := accept (respond codeOk 0#32) s

/-- `RD_STAT` (R172); reading clears nothing. -/
def execRdStat (s : State) : Host.Outcome State Fault Refusal :=
  accept (fun s => respond codeOk (statWord s) s) s

end Sys2Proof.Machine
end

