-- ==== Sys2Proof/Machine/TransportCmds.lean ====
section
/-!
DEFINITION. The meanings of the serial transport's commands (42_transport.md): what their accept steps do.
The sequencer, line and tick steps of Machine/Ops.lean carry the two multi-step ones to their response.
-/

namespace Sys2Proof.Machine

open Sys2Proof

/-- `TR_FLUSH` (R131). -/
def execTrFlush (s : State) : Host.Outcome State Fault Refusal :=
  accept (fun s => respond codeOk 0#32 (flush s)) s

/-- `TR_WRITE` (R132). -/
def execTrWrite (s : State) : Host.Outcome State Fault Refusal := accept (beginTx .write) s

/-- `TR_READ a, b` (R135). -/
def execTrRead (a : Byte) (b : Half) (s : State) : Host.Outcome State Fault Refusal :=
  accept (fun s =>
    if countLegal s.cfg a then beginRx a.toNat b { s with cur := .read } else raiseBadOperand s) s

end Sys2Proof.Machine
end

