-- ==== Sys2Proof/Machine/WireFormats.lean ====
section
/-!
DEFINITION. The meanings of the opcode table's three wire formats (30_encoding.md R78 to R80). They are no
commands: they are what the line carries to `rxd`, and the receiver takes each character of them as one
line step (R80, 42_transport.md R141), whatever the block is doing. One line step delivers one byte (20_memory.md
R60 (e)), so a frame's meaning is the arrival of its first byte, with the others left on the line to arrive by
line steps of their own (Machine/Ops.lean `wireStep`).
-/

namespace Sys2Proof.Machine

open Sys2Proof

/-- `REQ_FRAME` on the line reaches the receiver, as the block's own request does on a two-wire line
(R141, 43_exchange.md R166): byte 0 arrives, bytes 1 to 7 stand on the line. -/
def execReqFrame (slaveId : Byte) (startAddress crc : Half) (s : State) : Host.Outcome State Fault Refusal :=
  .next (carry (requestFrame slaveId startAddress crc) s)

/-- `RSP_FRAME`: the first seven bytes of a response reach the receiver: byte 0 arrives, bytes 1 to
6 stand on the line. -/
def execRspFrame (slaveId function byteCount : Byte) (regHigh regLow : Half) (s : State) :
    Host.Outcome State Fault Refusal :=
  .next (carry (responseFrame slaveId function byteCount regHigh regLow) s)

/-- `SERIAL_CHAR`: one character reaches the receiver: one line step. -/
def execSerialChar (v : Byte) (s : State) : Host.Outcome State Fault Refusal := .next (lineStep v s)

end Sys2Proof.Machine
end

