-- ==== Sys2Proof/Machine/Dispatch.lean ====
section
/-!
DEFINITION. One arm per row of the opcode table, each a direct call of that instruction's meaning.
-/

namespace Sys2Proof.Machine

open Sys2Proof

def exec (i : Instr) (s : State) : Host.Outcome State Fault Refusal :=
  match i with
  | .nop => Sys2Proof.Machine.execNop s
  | .rdStat => Sys2Proof.Machine.execRdStat s
  | .crcInit => Sys2Proof.Machine.execCrcInit s
  | .crcByte a => Sys2Proof.Machine.execCrcByte a s
  | .crcRd => Sys2Proof.Machine.execCrcRd s
  | .bldReq a b => Sys2Proof.Machine.execBldReq a b s
  | .prsRsp a => Sys2Proof.Machine.execPrsRsp a s
  | .tbRd a => Sys2Proof.Machine.execTbRd a s
  | .rbRd a => Sys2Proof.Machine.execRbRd a s
  | .txClr => Sys2Proof.Machine.execTxClr s
  | .txPut a => Sys2Proof.Machine.execTxPut a s
  | .trFlush => Sys2Proof.Machine.execTrFlush s
  | .trWrite => Sys2Proof.Machine.execTrWrite s
  | .trRead a b => Sys2Proof.Machine.execTrRead a b s
  | .xchg a b => Sys2Proof.Machine.execXchg a b s
  | .reqFrame slaveId startAddress crc => Sys2Proof.Machine.execReqFrame slaveId startAddress crc s
  | .rspFrame slaveId function byteCount regHigh regLow => Sys2Proof.Machine.execRspFrame slaveId function byteCount regHigh regLow s
  | .serialChar v => Sys2Proof.Machine.execSerialChar v s

end Sys2Proof.Machine
end

