-- ==== Sys2Proof/Machine/Agents.lean ====
section
/-!
DEFINITION. The moves of the agents (00_scope.md R16, 20_memory.md R60) and where the next instruction comes
from: the host's program for a command, the schedule for what the line carries.
-/

namespace Sys2Proof.Machine

open Sys2Proof

/-- The word the host issues next and the state without it: the first word of its program, or a free word
when the program is empty (60_exceptions.md R194). -/
def takeWord (s : State) : Word × State :=
  match s.program with
  | w :: ws => (w, { s with program := ws })
  | [] => (Config.freeWord s.draws, { s with draws := s.draws + 1 })

/-- The block accepts a command word (30_encoding.md R70): the event `Cmd`, then the command's meaning, or
`ILLEGAL_CMD` for an opcode that is none of the fifteen (R76, 60_exceptions.md R181, R185). -/
def acceptWord (w : Word) (s : State) : Host.Outcome State Fault Refusal :=
  match decode (.word w) with
  | .ok i => exec i (record (.cmd w) s)
  | .error _ => .next (raiseIllegalCmd (record (.cmd w) s))

/-- The host's move: it takes the response when there is one (R74), issues a command when the block is ready
(R70), and is held otherwise; it has no move while `rst` is asserted (70_reset_and_hazards.md R200). -/
def hostMove (s : State) : Host.Outcome State Fault Refusal :=
  if s.rst then .next s
  else
    match s.rsp with
    | some r => .next (takeResponse r s)
    | none =>
      if canAccept s then
        match takeWord s with
        | (w, t) => acceptWord w t
      else .next s

/-- The line's move: the meaning of the item it carries, or what the receiver makes of an item that is no
instruction of the table (42_transport.md R141, R143). -/
def lineMove (item : LineItem) (s : State) : Host.Outcome State Fault Refusal :=
  match decode (.line item) with
  | .ok i => exec i s
  | .error _ => .next (lineNoise item s)

/-- One move of one agent. -/
def runMove (m : Move) (s : State) : Host.Outcome State Fault Refusal :=
  match m with
  | .host => hostMove s
  | .seq => .next (seqStep s)
  | .line item => lineMove item s
  | .wire => .next (wireStep s)
  | .tick => .next (tickStep s)
  | .reset => .next (resetStep s)
  | .release => .next (releaseStep s)

/-- The next move and the state without it: the first of the schedule, or a free one when the schedule is
used up (00_scope.md R16). -/
def takeMove (s : State) : Move × State :=
  match s.schedule with
  | m :: ms => (m, { s with schedule := ms })
  | [] => (Config.freeMove s.draws, { s with draws := s.draws + 1 })

/-- One atomic step of the whole machine (20_memory.md R60). -/
def agentStep (s : State) : Host.Outcome State Fault Refusal :=
  match takeMove s with
  | (m, t) => runMove m t

/-- A command word placed where the host takes its next one, in a block that is ready and out of reset, with
the host to move next; an item placed on the line as the next move, out of reset. -/
def placeParcel (p : Parcel) (s : State) : State :=
  match p with
  | .word w =>
    { s with
      program := w :: s.program, schedule := .host :: s.schedule,
      phase := .idle, cur := .none, rsp := none, rst := false }
  | .line item => { s with schedule := .line item :: s.schedule, rst := false }

end Sys2Proof.Machine
end

