-- ==== Sys2Proof/Machine/Step.lean ====
section
/-!
DEFINITION. The step of the machine: one move of one agent (Machine/Agents.lean).
-/

namespace Sys2Proof.Machine

open Sys2Proof

/-- One atomic step (20_memory.md R60). -/
def step (s : State) : Host.Outcome State Fault Refusal := agentStep s

/-- The state with the instruction of an opcode-table row placed so that the next step runs it. -/
def State.withFetchWord (s : State) (nbits w : Nat) : State := placeParcel (tableParcel nbits w) s

end Sys2Proof.Machine
end

