-- ==== Sys2Proof/Safety.lean ====
section
/-!
DEFINITION. What claims about the machine are stated with: the invariant of the reachable states, what the
block's own state is as against the other agents', and the progress assumptions of 00_scope.md R17.
-/

namespace Sys2Proof.Machine

open Sys2Proof

/-- The four response codes of 60_exceptions.md R180. -/
abbrev legalCode (c : Byte) : Prop :=
  c = codeOk ∨ c = codeShortResponse ∨ c = codeIllegalCmd ∨ c = codeBadOperand

/-- What `TX` means for the other elements: no response waits, `txi` has not passed `txlen` (R33), the
command is a write or an exchange (R32), and an exchange sends its request, which fits (43_exchange.md
R160). -/
abbrev txWf (s : State) : Prop :=
  s.rsp = none ∧ s.txi ≤ s.txlen ∧ (s.cur = .write ∨ s.cur = .xchg) ∧
  (s.cur = .xchg → s.txlen = Config.reqLen)

/-- What `RX` means for the other elements: no response waits, the read has not taken more than it asked for
and asked for no more than fits (R34), bytes do not wait while it wants them (R35), the command is a read or
an exchange (R32), and an exchange asks for `XMAX` (43_exchange.md R161). -/
abbrev rxWf (s : State) : Prop :=
  s.rsp = none ∧ s.rlen ≤ s.rmax ∧ s.rmax ≤ s.cfg.rxcap ∧ (s.rlen < s.rmax → s.rxq = []) ∧
  (s.cur = .read ∨ s.cur = .xchg) ∧ (s.cur = .xchg → s.rmax = s.cfg.xmax)

/-- While `rst` is asserted the elements of R20 are at their reset values (30_encoding.md R85). -/
abbrev heldInReset (s : State) : Prop :=
  s.crc = 0xFFFF#16 ∧ s.txlen = 0 ∧ s.rxq = [] ∧ s.ovr = false ∧ s.rlen = 0 ∧ s.tmo = false ∧
  s.phase = .idle ∧ s.cur = .none ∧ s.txi = 0 ∧ s.rmax = 0 ∧ s.timer = 0#16 ∧ s.rsp = none

/-- The invariant: legal parameters (00_scope.md R9), stores in canonical form, `phase = IDLE` exactly when
`cur = NONE` (R32), the two phases' own facts, a legal response code, and the reset input's meaning. -/
structure Inv (s : State) : Prop where
  cfg : Config.Valid s.cfg
  mem : Memory.wf s
  idle : s.phase = .idle ↔ s.cur = .none
  tx : s.phase = .tx → txWf s
  rx : s.phase = .rx → rxWf s
  code : ∀ r, s.rsp = some r → legalCode r.code
  rst : s.rst = true → heldInReset s

/-- The elements of 10_state.md R20, without the command port's `rsp`: what a host can come to see of the
block through its commands. -/
structure BlockView where
  crc : Half
  txbuf : List Byte
  rxq : List Byte
  ovr : Bool
  rbuf : List Byte
  tmo : Bool
  phase : Phase
  cur : Cur
  txi : Nat
  rmax : Nat
  timer : Half
deriving DecidableEq, Repr

/-- The block's elements in a state. -/
def blockView (s : State) : BlockView :=
  { crc := s.crc, txbuf := s.txbuf, rxq := s.rxq, ovr := s.ovr, rbuf := s.rbuf, tmo := s.tmo,
    phase := s.phase, cur := s.cur, txi := s.txi, rmax := s.rmax, timer := s.timer }

/-- The instructions that are commands (30_encoding.md R75), as against the table's wire formats. -/
def isCommand : Instr → Bool
  | .nop | .rdStat | .crcInit | .crcByte _ | .crcRd | .bldReq _ _ | .prsRsp _ | .tbRd _ | .rbRd _
  | .txClr | .txPut _ | .trFlush | .trWrite | .trRead _ _ | .xchg _ _ => true
  | .reqFrame _ _ _ | .rspFrame _ _ _ _ _ | .serialChar _ => false

/-- The bytes the block has emitted, first byte first (00_scope.md R15, 20_memory.md R62). -/
def emitted (s : State) : List Byte :=
  s.events.reverse.filterMap fun e =>
    match e with
    | .tx v => some v
    | .cmd _ | .rsp _ _ | .rx _ _ | .tick | .reset => none

/-- The bytes the receiver has taken from the line and kept, first byte first (20_memory.md R63). -/
def received (s : State) : List Byte :=
  s.events.reverse.filterMap fun e =>
    match e with
    | .rx v true => some v
    | .rx _ false | .cmd _ | .rsp _ _ | .tx _ | .tick | .reset => none

/-- The progress assumptions of 00_scope.md R17 for a stream of moves: the sequencer is taken again and
again, and the tick source fires again and again. -/
def FairMoves (moves : Nat → Move) : Prop :=
  (∀ n, ∃ m, n ≤ m ∧ moves m = .seq) ∧ (∀ n, ∃ m, n ≤ m ∧ moves m = .tick)

/-- The state with exactly these commands for the host to issue. -/
def withProgram (words : List Word) (s : State) : State := { s with program := words }

/-- The machine run over exactly these moves, one step each. -/
def after (moves : List Move) (s : State) : Host.Outcome State Fault Refusal :=
  Host.Core.run Sys2Proof.core moves.length { s with schedule := moves }

/-- A move of the block itself or of what surrounds its serial side: no move of the host and no reset. -/
def isBlockMove : Move → Bool
  | .seq | .line _ | .wire | .tick => true
  | .host | .reset | .release => false

/-- A move of the line or of the tick source. -/
def isEnvironmentMove : Move → Bool
  | .line _ | .wire | .tick => true
  | .seq | .host | .reset | .release => false

/-- The line's moves that carry these bytes as single characters, first byte first. -/
def charMoves (bytes : List Byte) : List Move := bytes.map fun v => .line (.char (charBits v))

/-- The line's moves that carry these bytes as one frame: the frame, then the arrival of each of its other
bytes. -/
def frameMoves (bytes : List Byte) : List Move :=
  .line (.frame bytes) :: List.replicate (bytes.length - 1) .wire

/-- How many bytes the read in progress still wants (42_transport.md R141). -/
def wanted (s : State) : Nat := if s.phase = .rx then s.rmax - s.rlen else 0

/-- The state after the line has delivered these bytes with nothing in between, said all at once
(20_memory.md R63): the read in progress takes the bytes it still wants, the pending input takes what then
fits, the rest is dropped and sets `ovr`. -/
def delivered (bytes : List Byte) (s : State) : State :=
  let room := s.cfg.rxdepth - s.rxq.length
  { s with
    rbuf := s.rbuf ++ bytes.take (wanted s)
    rxq := s.rxq ++ (bytes.drop (wanted s)).take room
    ovr := s.ovr || decide (wanted s + room < bytes.length)
    events := (bytes.mapIdx fun i v => Event.rx v (decide (i < wanted s + room))).reverse ++ s.events }

end Sys2Proof.Machine
end

