-- ==== Sys2Proof/Certificates/Slice0/Obligations.lean ====
section
/-!
DEFINITION. The statements for the provers. Each docstring names the rules it formalises; `canAccept s = true`
is 30_encoding.md R70's condition (`phase = IDLE`, `rsp` empty) with the block out of reset
(70_reset_and_hazards.md R200). `s.txlen` and `s.rlen` are the lengths of the buffers' valid bytes.
-/

open Sys2Proof Sys2Proof.Machine

/-! ### Commands: encoding, effect, and everything left unchanged -/

/-- R170: `NOP` responds `(OK, 0)` and writes nothing else. -/
def Obligations.NopRespondsOk : Prop :=
  (∀ x y, decode (.word (commandWord 0x00#8 x y)) = .ok .nop) ∧
  ∀ s : State, canAccept s = true → exec .nop s = .next { s with rsp := some ⟨0x00#8, 0#32⟩ }

/-- R172 with R37: `RD_STAT` returns the five fields of `STAT`, each at its place and not cut off, and writes
nothing. -/
def Obligations.RdStatReturnsStatus : Prop :=
  (∀ x y, decode (.word (commandWord 0x01#8 x y)) = .ok .rdStat) ∧
  ∀ s : State, Inv s → canAccept s = true →
    ∃ d : Word, exec .rdStat s = .next { s with rsp := some ⟨0x00#8, d⟩ } ∧
      (d.extractLsb' 0 8).toNat = s.rlen ∧ (d.extractLsb' 8 8).toNat = s.txlen ∧
      (d.extractLsb' 16 8).toNat = min s.rxq.length 255 ∧
      d.getLsbD 24 = s.tmo ∧ d.getLsbD 25 = s.ovr ∧ d.extractLsb' 26 6 = 0#6

/-- R102: `CRC_INIT` loads 0xFFFF. -/
def Obligations.CrcInitLoadsStartValue : Prop :=
  (∀ x y, decode (.word (commandWord 0x10#8 x y)) = .ok .crcInit) ∧
  ∀ s : State, canAccept s = true →
    exec .crcInit s = .next { s with crc := 0xFFFF#16, rsp := some ⟨0x00#8, 0#32⟩ }

/-- R103 with R100, R101 written out: exclusive-or into the low byte, then eight times the bit step. -/
def Obligations.CrcByteAdvancesRegister : Prop :=
  (∀ a y, decode (.word (commandWord 0x11#8 a y)) = .ok (.crcByte a)) ∧
  ∀ (s : State) (a : Byte), canAccept s = true →
    exec (.crcByte a) s = .next { s with
      crc := (fun r : Half => if r.getLsbD 0 then (r >>> 1) ^^^ 0xA001#16 else r >>> 1)^[8]
        (s.crc ^^^ a.setWidth 16)
      rsp := some ⟨0x00#8, 0#32⟩ }

/-- R104: `CRC_RD` returns the register and keeps it. -/
def Obligations.CrcRdReturnsRegister : Prop :=
  (∀ x y, decode (.word (commandWord 0x12#8 x y)) = .ok .crcRd) ∧
  ∀ s : State, canAccept s = true →
    exec .crcRd s = .next { s with rsp := some ⟨0x00#8, s.crc.setWidth 32⟩ }

/-- R110 to R112: `BLD_REQ` leaves the eight bytes of the request in the transmit buffer and the CRC of its
first six in `crc`. -/
def Obligations.BldReqBuildsFrame : Prop :=
  (∀ a b, decode (.word (commandWord 0x20#8 a b)) = .ok (.bldReq a b)) ∧
  ∀ (s : State) (a : Byte) (b : Half), canAccept s = true →
    exec (.bldReq a b) s = .next { s with
      txbuf := [a, 0x03#8, hi8 b, lo8 b, 0x00#8, 0x02#8,
        lo8 (crc16 [a, 0x03#8, hi8 b, lo8 b, 0x00#8, 0x02#8]),
        hi8 (crc16 [a, 0x03#8, hi8 b, lo8 b, 0x00#8, 0x02#8])]
      crc := crc16 [a, 0x03#8, hi8 b, lo8 b, 0x00#8, 0x02#8]
      rsp := some ⟨0x00#8, 0#32⟩ }

/-- R113 to R116: `PRS_RSP` returns bytes 3 to 6 of a response buffer of at least seven bytes, most
significant first, and `SHORT_RESPONSE` with the length otherwise; the operand and every other byte make no
difference, and nothing else is written. -/
def Obligations.PrsRspParsesBuffer : Prop :=
  (∀ a y, decode (.word (commandWord 0x21#8 a y)) = .ok (.prsRsp a)) ∧
  (∀ (s : State) (a : Byte), canAccept s = true → 7 ≤ s.rlen →
    ∃ b3 b4 b5 b6 : Byte, s.rbuf[3]? = some b3 ∧ s.rbuf[4]? = some b4 ∧ s.rbuf[5]? = some b5 ∧
      s.rbuf[6]? = some b6 ∧
      exec (.prsRsp a) s = .next { s with rsp := some ⟨0x00#8, b3 ++ b4 ++ b5 ++ b6⟩ }) ∧
  (∀ (s : State) (a : Byte), canAccept s = true → s.rlen < 7 →
    exec (.prsRsp a) s = .next { s with rsp := some ⟨0x01#8, BitVec.ofNat 32 s.rlen⟩ })

/-- R119: `TB_RD` returns the byte at an index below `txlen`, `BAD_OPERAND` at any other. -/
def Obligations.TbRdReadsTransmitBuffer : Prop :=
  (∀ a y, decode (.word (commandWord 0x22#8 a y)) = .ok (.tbRd a)) ∧
  (∀ (s : State) (a v : Byte), canAccept s = true → s.txbuf[a.toNat]? = some v →
    exec (.tbRd a) s = .next { s with rsp := some ⟨0x00#8, v.setWidth 32⟩ }) ∧
  (∀ (s : State) (a : Byte), canAccept s = true → s.txlen ≤ a.toNat →
    exec (.tbRd a) s = .next { s with rsp := some ⟨0x03#8, 0#32⟩ })

/-- R120: `RB_RD` returns the byte at an index below `rlen`, `BAD_OPERAND` at any other. -/
def Obligations.RbRdReadsResponseBuffer : Prop :=
  (∀ a y, decode (.word (commandWord 0x23#8 a y)) = .ok (.rbRd a)) ∧
  (∀ (s : State) (a v : Byte), canAccept s = true → s.rbuf[a.toNat]? = some v →
    exec (.rbRd a) s = .next { s with rsp := some ⟨0x00#8, v.setWidth 32⟩ }) ∧
  (∀ (s : State) (a : Byte), canAccept s = true → s.rlen ≤ a.toNat →
    exec (.rbRd a) s = .next { s with rsp := some ⟨0x03#8, 0#32⟩ })

/-- R121: `TX_CLR` sets `txlen` to 0 (no byte of the buffer is valid any more) and writes nothing else. -/
def Obligations.TxClrEmptiesTransmitBuffer : Prop :=
  (∀ x y, decode (.word (commandWord 0x24#8 x y)) = .ok .txClr) ∧
  ∀ s : State, canAccept s = true →
    exec .txClr s = .next { s with txbuf := [], rsp := some ⟨0x00#8, 0#32⟩ }

/-- R122: `TX_PUT` writes the byte at index `txlen` and raises `txlen` by one, or answers `BAD_OPERAND` when
the buffer is full. -/
def Obligations.TxPutAppendsByte : Prop :=
  (∀ a y, decode (.word (commandWord 0x25#8 a y)) = .ok (.txPut a)) ∧
  (∀ (s : State) (a : Byte), Inv s → canAccept s = true → s.txlen ≠ s.cfg.txcap →
    exec (.txPut a) s = .next { s with txbuf := s.txbuf ++ [a], rsp := some ⟨0x00#8, 0#32⟩ }) ∧
  (∀ (s : State) (a : Byte), canAccept s = true → s.txlen = s.cfg.txcap →
    exec (.txPut a) s = .next { s with rsp := some ⟨0x03#8, 0#32⟩ })

/-- R131: `TR_FLUSH` empties the pending input and clears `ovr`. -/
def Obligations.TrFlushDiscardsPendingInput : Prop :=
  (∀ x y, decode (.word (commandWord 0x30#8 x y)) = .ok .trFlush) ∧
  ∀ s : State, canAccept s = true →
    exec .trFlush s = .next { s with rxq := [], ovr := false, rsp := some ⟨0x00#8, 0#32⟩ }

/-- R132: `TR_WRITE` starts `TX`, and `txlen + 1` sequencer steps later every byte has been emitted in index
order, `(OK, 0)` is posted and nothing but `txi` and the events has changed; with `txlen = 0` that is one step
and no byte. -/
def Obligations.TrWriteEmitsTransmitBuffer : Prop :=
  (∀ x y, decode (.word (commandWord 0x31#8 x y)) = .ok .trWrite) ∧
  (∀ s : State, canAccept s = true →
    exec .trWrite s = .next { s with cur := .write, txi := 0, phase := .tx }) ∧
  ∀ s : State, s.rst = false → s.phase = .tx → s.cur = .write → s.txi = 0 →
    after (List.replicate (s.txlen + 1) .seq) s = .next { s with
      phase := .idle, cur := .none, txi := s.txlen, rsp := some ⟨0x00#8, 0#32⟩
      events := (s.txbuf.map Event.tx).reverse ++ s.events
      schedule := [] }

/-- R135: `TR_READ a, b` answers `BAD_OPERAND` when `a` is above the capacity; otherwise it starts a read for
`a` bytes and `b` ticks with what is pending; the sequencer leaves that read running while `rlen` is not `rmax`
and `timer` not 0 (R137, R139), and its end posts `OK` with `rlen` in bits 7 to 0, `tmo` in bit 8 and 0 above. -/
def Obligations.TrReadStartsAndEndsRead : Prop :=
  (∀ a b, decode (.word (commandWord 0x32#8 a b)) = .ok (.trRead a b)) ∧
  (∀ (s : State) (a : Byte) (b : Half), canAccept s = true → s.cfg.rxcap < a.toNat →
    exec (.trRead a b) s = .next { s with rsp := some ⟨0x03#8, 0#32⟩ }) ∧
  (∀ (s : State) (a : Byte) (b : Half), canAccept s = true → a.toNat ≤ s.cfg.rxcap →
    exec (.trRead a b) s = .next { s with
      cur := .read, tmo := false, rmax := a.toNat, timer := b
      rbuf := s.rxq.take a.toNat, rxq := s.rxq.drop a.toNat, phase := .rx }) ∧
  (∀ s : State, s.rst = false → s.phase = .rx → s.cur = .read → s.rlen ≠ s.rmax → s.timer ≠ 0#16 →
    runMove .seq s = .next s) ∧
  (∀ s : State, Inv s → s.phase = .rx → s.cur = .read → (s.rlen = s.rmax ∨ s.timer = 0#16) →
    ∃ d : Word, after [.seq] s = .next { s with
        phase := .idle, cur := .none, tmo := decide (s.rlen < s.rmax), rsp := some ⟨0x00#8, d⟩
        schedule := [] } ∧
      (d.extractLsb' 0 8).toNat = s.rlen ∧ d.getLsbD 8 = decide (s.rlen < s.rmax) ∧
      d.extractLsb' 9 23 = 0#23)

/-- R160: the accept step of `XCHG`: the request is built, the pending input flushed, `TX` started. -/
def Obligations.XchgStartsExchange : Prop :=
  (∀ a b, decode (.word (commandWord 0x40#8 a b)) = .ok (.xchg a b)) ∧
  ∀ (s : State) (a : Byte) (b : Half), canAccept s = true →
    exec (.xchg a b) s = .next { s with
      txbuf := [a, 0x03#8, hi8 b, lo8 b, 0x00#8, 0x02#8,
        lo8 (crc16 [a, 0x03#8, hi8 b, lo8 b, 0x00#8, 0x02#8]),
        hi8 (crc16 [a, 0x03#8, hi8 b, lo8 b, 0x00#8, 0x02#8])]
      crc := crc16 [a, 0x03#8, hi8 b, lo8 b, 0x00#8, 0x02#8]
      rxq := [], ovr := false, cur := .xchg, txi := 0, phase := .tx }

/-! ### What the line carries -/

/-- The model's choice (log entry 9) is that executing the row `SERIAL_CHAR` means its arrival on `rxd`; what
arrives is then one line step as R141 has it: a read that still wants bytes takes it, else the pending input does
while it has room, else it is dropped and `ovr` set; the event says which. -/
def Obligations.SerialCharIsOneLineStep : Prop :=
  ∀ (s : State) (v : Byte), s.rst = false →
    ((s.phase = .rx ∧ s.rlen < s.rmax) →
      exec (.serialChar v) s =
        .next { s with rbuf := s.rbuf ++ [v], events := .rx v true :: s.events }) ∧
    (¬ (s.phase = .rx ∧ s.rlen < s.rmax) → s.rxq.length < s.cfg.rxdepth →
      exec (.serialChar v) s =
        .next { s with rxq := s.rxq ++ [v], events := .rx v true :: s.events }) ∧
    (¬ (s.phase = .rx ∧ s.rlen < s.rmax) → ¬ s.rxq.length < s.cfg.rxdepth →
      exec (.serialChar v) s = .next { s with ovr := true, events := .rx v false :: s.events })

/-- The model's choice (log entry 9), from R78, R141, R60, R63: executing `REQ_FRAME` is the line step of its
first byte, the other seven left on the line; with their seven arrivals after it all eight bytes are delivered
in order. -/
def Obligations.ReqFrameDeliversEightBytes : Prop :=
  ∀ (s : State) (slaveId : Byte) (startAddress crc : Half), s.rst = false →
    exec (.reqFrame slaveId startAddress crc) s = .next (delivered [slaveId] { s with
      wire := [0x03#8, hi8 startAddress, lo8 startAddress, 0x00#8, 0x02#8, lo8 crc, hi8 crc] ++ s.wire }) ∧
    after (frameMoves
        [slaveId, 0x03#8, hi8 startAddress, lo8 startAddress, 0x00#8, 0x02#8, lo8 crc, hi8 crc]) s =
      .next { delivered
        [slaveId, 0x03#8, hi8 startAddress, lo8 startAddress, 0x00#8, 0x02#8, lo8 crc, hi8 crc] s with
        schedule := [] }

/-- The model's choice (log entry 9), from R79, R141, R60, R63: executing `RSP_FRAME` is the line step of its
first byte, the other six left on the line; with their six arrivals after it all seven bytes are delivered in
order. -/
def Obligations.RspFrameDeliversSevenBytes : Prop :=
  ∀ (s : State) (slaveId function byteCount : Byte) (regHigh regLow : Half), s.rst = false →
    exec (.rspFrame slaveId function byteCount regHigh regLow) s = .next (delivered [slaveId] { s with
      wire := [function, byteCount, hi8 regHigh, lo8 regHigh, hi8 regLow, lo8 regLow] ++ s.wire }) ∧
    after (frameMoves
        [slaveId, function, byteCount, hi8 regHigh, lo8 regHigh, hi8 regLow, lo8 regLow]) s =
      .next { delivered
        [slaveId, function, byteCount, hi8 regHigh, lo8 regHigh, hi8 regLow, lo8 regLow] s with
        schedule := [] }

/-- R143 as the model has it (log entry 10): what the receiver makes of a malformed character is either no
line step or one line step with some byte value. -/
def Obligations.MalformedCharIsNoneOrAnyByte : Prop :=
  ∀ (s : State) (bits : BitVec 10), (bits.getLsbD 9 = true ∨ bits.getLsbD 0 = false) →
    (runMove (.line (.char bits)) s = .next { s with draws := s.draws + 1 } ∨
      ∃ v : Byte, runMove (.line (.char bits)) s = exec (.serialChar v) { s with draws := s.draws + 1 })

/-! ### The sequencer, the tick, the command port, the reset -/

/-- R133: the sequencer emits the byte at `txi` and counts `txi` up; nothing on the line can disable it. -/
def Obligations.SequencerEmitsNextByte : Prop :=
  ∀ (s : State) (v : Byte), s.rst = false → s.phase = .tx → s.txbuf[s.txi]? = some v →
    runMove .seq s = .next { s with txi := s.txi + 1, events := .tx v :: s.events }

/-- R134, R136, R162: at `txi = txlen` a write ends with `(OK, 0)` and an exchange starts its read for `XMAX`
bytes and 100 ticks with what is pending. -/
def Obligations.SequencerEndsTransmission : Prop :=
  ∀ s : State, s.rst = false → s.phase = .tx → s.txi = s.txlen →
    (s.cur = .write → runMove .seq s =
      .next { s with phase := .idle, cur := .none, rsp := some ⟨0x00#8, 0#32⟩ }) ∧
    (s.cur = .xchg → runMove .seq s = .next { s with
      tmo := false, rmax := s.cfg.xmax, timer := 100#16
      rbuf := s.rxq.take s.cfg.xmax, rxq := s.rxq.drop s.cfg.xmax, phase := .rx })

/-- R139, R163: the end of an exchange's read sets `tmo`, goes idle and posts the parse of the response
buffer; the read does not end while it wants bytes and has time. -/
def Obligations.SequencerEndsExchange : Prop :=
  ∀ s : State, s.rst = false → s.phase = .rx → s.cur = .xchg →
    ((s.rlen = s.rmax ∨ s.timer = 0#16) → s.rlen < 7 → runMove .seq s = .next { s with
      phase := .idle, cur := .none, tmo := decide (s.rlen < s.rmax)
      rsp := some ⟨0x01#8, BitVec.ofNat 32 s.rlen⟩ }) ∧
    ((s.rlen = s.rmax ∨ s.timer = 0#16) → 7 ≤ s.rlen →
      ∃ b3 b4 b5 b6 : Byte, s.rbuf[3]? = some b3 ∧ s.rbuf[4]? = some b4 ∧ s.rbuf[5]? = some b5 ∧
        s.rbuf[6]? = some b6 ∧ runMove .seq s = .next { s with
          phase := .idle, cur := .none, tmo := decide (s.rlen < s.rmax)
          rsp := some ⟨0x00#8, b3 ++ b4 ++ b5 ++ b6⟩ }) ∧
    (s.rlen ≠ s.rmax → s.timer ≠ 0#16 → runMove .seq s = .next s)

/-- R142: a tick counts the timer of a read down to 0 and changes nothing else but the history. -/
def Obligations.TickCountsReadTimer : Prop :=
  ∀ s : State, s.rst = false →
    (s.phase = .rx → s.timer ≠ 0#16 → runMove .tick s =
      .next { s with timer := s.timer - 1#16, events := .tick :: s.events }) ∧
    ((s.phase ≠ .rx ∨ s.timer = 0#16) → runMove .tick s = .next { s with events := .tick :: s.events })

/-- R74: taking the response empties `rsp` and records it; the block does nothing else. -/
def Obligations.HostTakesResponse : Prop :=
  ∀ (s : State) (r : Response), s.rst = false → s.rsp = some r →
    runMove .host s = .next { s with rsp := none, events := .rsp r.code r.data :: s.events }

/-- From R70 and log entry 8: while the block is not ready no command has any effect and the host, with no
response to take, is held with its program untouched. -/
def Obligations.BusyBlockHoldsHost : Prop :=
  ∀ s : State, canAccept s = false →
    (∀ i, isCommand i = true → exec i s = .next s) ∧ (s.rsp = none → runMove .host s = .next s)

/-- R76, R181: a command word whose `op` is none of the fifteen is accepted, changes nothing but the history
and the response `(ILLEGAL_CMD, 0)`. -/
def Obligations.UnknownOpcodeIsIllegalCommand : Prop :=
  ∀ (s : State) (w : Word) (ws : List Word), canAccept s = true → s.program = w :: ws →
    w.extractLsb' 24 8 ∉ [0x00#8, 0x01#8, 0x10#8, 0x11#8, 0x12#8, 0x20#8, 0x21#8, 0x22#8, 0x23#8, 0x24#8,
      0x25#8, 0x30#8, 0x31#8, 0x32#8, 0x40#8] →
    runMove .host s = .next { s with
      program := ws, events := .cmd w :: s.events, rsp := some ⟨0x02#8, 0#32⟩ }

/-- R200: reset at any time puts every element of R20 at its reset value, records the event and nothing else
of the history, and posts no response for the command it cuts off. -/
def Obligations.ResetPutsResetValues : Prop :=
  ∀ s : State, runMove .reset s = .next { s with
    crc := 0xFFFF#16, txbuf := [], rxq := [], ovr := false, rbuf := [], tmo := false, phase := .idle
    cur := .none, txi := 0, rmax := 0, timer := 0#16, rsp := none, rst := true
    events := .reset :: s.events }

/-- R42, R201: the state after reset, and what `RD_STAT`, `CRC_RD` and `PRS_RSP` answer in it. -/
def Obligations.ResetStateAndFirstAnswers : Prop :=
  heldInReset State.reset ∧ canAccept State.reset = true ∧
  exec .rdStat State.reset = .next { State.reset with rsp := some ⟨0x00#8, 0x00000000#32⟩ } ∧
  exec .crcRd State.reset = .next { State.reset with rsp := some ⟨0x00#8, 0x0000FFFF#32⟩ } ∧
  ∀ a, exec (.prsRsp a) State.reset = .next { State.reset with rsp := some ⟨0x01#8, 0#32⟩ }

/-- R200 with the level of `rst` as a field (log entry 7): while it is asserted no agent's move changes the
block; bytes that arrive are not received; what stands on the line may change. Its release (R201, R203, the
model's move of log entry 7) changes nothing else. -/
def Obligations.AssertedResetStopsAgents : Prop :=
  (∀ (s : State) (m : Move), s.rst = true → m ≠ .release → m ≠ .reset →
    ∃ n w, runMove m s = .next { s with draws := n, wire := w }) ∧
  ∀ s : State, runMove .release s = .next { s with rst := false }

/-! ### Decoding and the step -/

/-- The step at a state whose next move and instruction are placed: the host's command is taken from the
program, recorded and executed; an item on the line is executed; both with the move used up. That the schedule
and the program stand in the state is the model's choice (log entries 1 and 2), and so is that a decoded item of
the line is executed (log entry 9); R70 gives the acceptance and its event. -/
def Obligations.StepRunsDecodedInstruction : Prop :=
  (∀ (s : State) (w : Word) (ws : List Word) (ms : List Move) (i : Instr), canAccept s = true →
    s.schedule = .host :: ms → s.program = w :: ws → decode (.word w) = .ok i →
    step s = exec i { s with schedule := ms, program := ws, events := .cmd w :: s.events }) ∧
  (∀ (s : State) (item : LineItem) (ms : List Move) (i : Instr),
    s.schedule = .line item :: ms → decode (.line item) = .ok i →
    step s = exec i { s with schedule := ms })

/-- Words written out from R71, R75, R78 to R80 decode to the instructions they stand for. The start bit, the
bit order and the stop bit of the character are the spec's general knowledge, not its source's (R80, log entry
12, PRESUMED). -/
def Obligations.WrittenOutWordsDecode : Prop :=
  decode (.word 0b00000000_11111111_1111111111111111#32) = .ok .nop ∧
  decode (.word 0b00010001_00110001_0000000000000000#32) = .ok (.crcByte 0x31#8) ∧
  decode (.word 0b00100000_00000001_0000000000000110#32) = .ok (.bldReq 0x01#8 0x0006#16) ∧
  decode (.word 0b00110010_00001001_0000000001100100#32) = .ok (.trRead 9#8 100#16) ∧
  decode (.word 0b01000000_00000001_0000000000000010#32) = .ok (.xchg 0x01#8 0x0002#16) ∧
  decode (.line (.frame [0x01#8, 0x03#8, 0x00#8, 0x06#8, 0x00#8, 0x02#8, 0x24#8, 0x0A#8])) =
    .ok (.reqFrame 0x01#8 0x0006#16 0x0A24#16) ∧
  decode (.line (.frame [0x01#8, 0x03#8, 0x04#8, 0x43#8, 0x66#8, 0x80#8, 0x00#8])) =
    .ok (.rspFrame 0x01#8 0x03#8 0x04#8 0x4366#16 0x8000#16) ∧
  decode (.line (.char 0b0_1_0_0_0_1_1_0_0_1#10)) = .ok (.serialChar 0x31#8)

/-- R78 to R80, R71: decoding the encoding of any instruction of the spec gives it back, with every operand
at every value. -/
def Obligations.DecodeOfEncodeIsIdentity : Prop :=
  ∀ i : Instr, i.wellFormed = true → decode (encode i) = .ok i

/-- The other direction: what decodes is encoded back to the same bits, but for the operand fields a command
does not use (R77); so no two encodings on the line mean the same and none is lost. -/
def Obligations.EncodeOfDecodeRestoresBits : Prop :=
  (∀ (item : LineItem) (i : Instr), decode (.line item) = .ok i → encode i = .line item) ∧
  (∀ (w : Word) (i : Instr), decode (.word w) = .ok i →
    isCommand i = true ∧ ∃ x y, encode i = .word (commandWord (w.extractLsb' 24 8) x y) ∧
      (x = w.extractLsb' 16 8 ∨ x = 0#8) ∧ (y = w.extractLsb' 0 16 ∨ y = 0#16) ∧
      decode (.word (commandWord (w.extractLsb' 24 8) x y)) = .ok i)

/-! ### Laws of the CRC engine -/

/-- R105 at the command port: `CRC_INIT`, one `CRC_BYTE` per byte and `CRC_RD`, each response taken before
the next command, end with `crc16` of the bytes in `crc` and in the response. -/
def Obligations.CrcCommandsComputeCrc16 : Prop :=
  ∀ (s : State) (bytes : List Byte), canAccept s = true →
    ∃ t, after (List.replicate (2 * bytes.length + 3) .host)
        (withProgram (commandWord 0x10#8 0 0 :: bytes.map (fun v => commandWord 0x11#8 v 0) ++
          [commandWord 0x12#8 0 0]) s) = .next t ∧
      t.crc = crc16 bytes ∧ t.rsp = some ⟨0x00#8, (crc16 bytes).setWidth 32⟩

/-- R105, last two sentences: only `CRC_INIT`, `CRC_BYTE`, `BLD_REQ` and `XCHG` touch `crc`; the line, the
sequencer and the tick never do. -/
def Obligations.OnlyFourCommandsTouchCrc : Prop :=
  (∀ (i : Instr) (s t : State), exec i s = .next t → t.crc ≠ s.crc →
    i = .crcInit ∨ (∃ a, i = .crcByte a) ∨ (∃ a b, i = .bldReq a b) ∨ ∃ a b, i = .xchg a b) ∧
  (∀ (m : Move) (s t : State), isBlockMove m = true → runMove m s = .next t → t.crc = s.crc)

/-- R107: a message followed by its CRC, low byte first, has CRC 0. -/
def Obligations.CrcResidueIsZero : Prop :=
  ∀ m : List Byte, crc16 (m ++ [lo8 (crc16 m), hi8 (crc16 m)]) = 0x0000#16

/-- R108 and R107 on the machine: after `BLD_REQ` or the accept step of `XCHG`, the last two bytes of the
transmit buffer are the CRC of the first six, low byte first, and the CRC of all eight is 0. -/
def Obligations.BuiltRequestCarriesItsCrc : Prop :=
  ∀ (s t : State) (a : Byte) (b : Half), canAccept s = true →
    (exec (.bldReq a b) s = .next t ∨ exec (.xchg a b) s = .next t) →
    t.txlen = 8 ∧ t.txbuf.drop 6 = [lo8 (crc16 (t.txbuf.take 6)), hi8 (crc16 (t.txbuf.take 6))] ∧
    crc16 t.txbuf = 0x0000#16

/-! ### The read -/

/-- R137, R63: whatever bytes the line delivers during a read, the response buffer is the longest prefix, of
at most `maxBytes`, of the pending input followed by them, and what is beyond stays pending as far as it
fits. -/
def Obligations.ReadReturnsLongestPrefix : Prop :=
  ∀ (s t : State) (a : Byte) (b : Half) (bytes : List Byte), Inv s → canAccept s = true →
    a.toNat ≤ s.cfg.rxcap → exec (.trRead a b) s = .next t →
    ∃ u, after (charMoves bytes) t = .next u ∧
      u.rbuf = (s.rxq ++ bytes).take a.toNat ∧
      u.rxq = ((s.rxq ++ bytes).drop a.toNat).take s.cfg.rxdepth

/-- R138, R142: the timer of a read counts every tick, saturating at 0, and no byte that arrives restarts
it. -/
def Obligations.TimeoutBoundsWholeRead : Prop :=
  ∀ (s t : State) (ms : List Move), s.rst = false → s.phase = .rx →
    (∀ m ∈ ms, isEnvironmentMove m = true) → after ms s = .next t →
    t.phase = .rx ∧ t.timer.toNat = s.timer.toNat - ms.count .tick

/-! ### The exchange -/

/-- R166, first case, with R161, R162: nothing arrives, and after the request and 100 ticks the exchange ends
with `(SHORT_RESPONSE, 0)` and `tmo = 1`, the eight bytes of the request emitted and nothing else; one tick less
does not end it. -/
def Obligations.SilentLineTimesOutExchange : Prop :=
  ∀ (s : State) (a : Byte) (b : Half), Inv s → canAccept s = true →
    (∃ t, after (Move.host :: List.replicate 9 Move.seq ++ List.replicate 100 Move.tick ++ [Move.seq])
        (withProgram [commandWord 0x40#8 a b] s) = .next t ∧
      t.rsp = some ⟨0x01#8, 0#32⟩ ∧ t.phase = .idle ∧ t.tmo = true ∧ t.rlen = 0 ∧
      emitted t = emitted s ++ [a, 0x03#8, hi8 b, lo8 b, 0x00#8, 0x02#8,
        lo8 (crc16 [a, 0x03#8, hi8 b, lo8 b, 0x00#8, 0x02#8]),
        hi8 (crc16 [a, 0x03#8, hi8 b, lo8 b, 0x00#8, 0x02#8])]) ∧
    (∃ t, after (Move.host :: List.replicate 9 Move.seq ++ List.replicate 99 Move.tick ++ [Move.seq])
        (withProgram [commandWord 0x40#8 a b] s) = .next t ∧ t.rsp = none ∧ t.phase = .rx)

/-- R166, R163, R118 with the default `XMAX = 9`: any nine bytes after the request end the exchange at once
with bytes 3 to 6 of them, whatever they hold, and `tmo = 0`. -/
def Obligations.NineByteAnswerIsReturned : Prop :=
  ∀ (s : State) (a : Byte) (b : Half) (v0 v1 v2 v3 v4 v5 v6 v7 v8 : Byte), Inv s → canAccept s = true →
    s.cfg.xmax = 9 →
    ∃ t, after (Move.host :: List.replicate 9 Move.seq ++
        charMoves [v0, v1, v2, v3, v4, v5, v6, v7, v8] ++ [Move.seq])
        (withProgram [commandWord 0x40#8 a b] s) = .next t ∧
      t.rsp = some ⟨0x00#8, v3 ++ v4 ++ v5 ++ v6⟩ ∧ t.tmo = false ∧ t.phase = .idle ∧
      t.rbuf = [v0, v1, v2, v3, v4, v5, v6, v7, v8] ∧ t.rxq = []

/-- R166, the echo, R208: the eight request bytes heard back while they are sent come first in the response
buffer, and the exchange returns request bytes as data. -/
def Obligations.EchoIsReturnedAsData : Prop :=
  ∀ (s : State) (a v : Byte) (b : Half), Inv s → canAccept s = true → s.cfg.xmax = 9 → 8 ≤ s.cfg.rxdepth →
    ∃ t, after (Move.host :: List.replicate 8 Move.seq ++
        charMoves [a, 0x03#8, hi8 b, lo8 b, 0x00#8, 0x02#8,
          lo8 (crc16 [a, 0x03#8, hi8 b, lo8 b, 0x00#8, 0x02#8]),
          hi8 (crc16 [a, 0x03#8, hi8 b, lo8 b, 0x00#8, 0x02#8])] ++ [Move.seq] ++ charMoves [v] ++ [Move.seq])
        (withProgram [commandWord 0x40#8 a b] s) = .next t ∧
      t.rsp = some ⟨0x00#8, lo8 b ++ 0x00#8 ++ 0x02#8 ++
        lo8 (crc16 [a, 0x03#8, hi8 b, lo8 b, 0x00#8, 0x02#8])⟩

/-- R164, R183: at the end of an exchange `tmo` is 1 exactly when fewer than `XMAX` bytes were read, and
`SHORT_RESPONSE` comes only with `tmo = 1`. -/
def Obligations.ShortExchangeHasTimedOut : Prop :=
  ∀ s t : State, Inv s → s.phase = .rx → s.cur = .xchg → runMove .seq s = .next t → t.phase = .idle →
    (t.tmo = true ↔ t.rlen < s.cfg.xmax) ∧
    ∀ r, t.rsp = some r → (r.code = 0x00#8 ∨ r.code = 0x01#8) ∧ (r.code = 0x01#8 → t.tmo = true)

/-- R165: an exchange and the same thing done by parts, with the line, tick and sequencer moves at the same
places relative to the flush, the emitted bytes and the read, end in the same elements of R20 with the same
response, the same bytes emitted and the same bytes received. `m1` are the moves up to the last emitted
byte, `m2` those of the read and after it. -/
def Obligations.XchgRefinedByParts : Prop :=
  ∀ (s t u : State) (a : Byte) (b : Half) (m1 m2 : List Move), Inv s → canAccept s = true →
    (∀ m ∈ m1 ++ m2, isBlockMove m = true) →
    after (Move.host :: m1) (withProgram [commandWord 0x40#8 a b] s) = .next u → u.phase = .tx →
    u.txi = u.txlen →
    after (Move.host :: m1 ++ [Move.seq] ++ m2) (withProgram [commandWord 0x40#8 a b] s) = .next t →
    t.phase = .idle →
    ∃ v, after ([Move.host, Move.host, Move.host, Move.host, Move.host] ++ m1 ++ [Move.seq, Move.host, Move.host] ++ m2 ++ [Move.host, Move.host])
        (withProgram [commandWord 0x20#8 a b, commandWord 0x30#8 0 0, commandWord 0x31#8 0 0,
          commandWord 0x32#8 (BitVec.ofNat 8 s.cfg.xmax) 100#16, commandWord 0x21#8 a 0] s) = .next v ∧
      blockView v = blockView t ∧ v.rsp = t.rsp ∧ emitted v = emitted t ∧ received v = received t

/-! ### The whole machine -/

/-- The invariant (R9, R32 to R35, R85, R180 and the capacities of R20) is kept by every step. -/
def Obligations.EveryStepKeepsInvariant : Prop :=
  ∀ s t : State, Inv s → step s = .next t → Inv t

/-- The invariant holds after reset. -/
def Obligations.ResetMeetsInvariant : Prop := Inv State.reset

/-- R196: there is no state and no word at which the machine stops: every step answers a next state. -/
def Obligations.EveryStepAnswersNextState : Prop := ∀ s : State, ∃ t, step s = .next t

/-- R17: under its progress assumptions, in the form `FairMoves` of log entry 20, every command ends: from any state of the invariant a fair stream of
moves brings the block to `IDLE`, whatever the line and the host do. -/
def Obligations.FairMovesEndEveryCommand : Prop :=
  ∀ (moves : Nat → Move) (s : State), FairMoves moves → Inv s →
    ∃ n t, after ((List.range n).map moves) s = .next t ∧ t.phase = .idle

/-- R62: a step emits at most one byte, only in `TX`, only as the sequencer's move (the move it takes is log
entry 1's form), and it is the byte at `txi`. -/
def Obligations.BytesLeaveOnlyInTransmission : Prop :=
  ∀ s t : State, step s = .next t →
    emitted t = emitted s ∨
    ∃ v, (takeMove s).1 = .seq ∧ s.phase = .tx ∧ s.txbuf[s.txi]? = some v ∧ emitted t = emitted s ++ [v] ∧ t.txi = s.txi + 1 ∧
      t.txbuf = s.txbuf

/-- R61, R70: a command is recorded as accepted only when the block is idle with no response waiting and not
in reset. -/
def Obligations.CommandsAcceptedOnlyWhenReady : Prop :=
  ∀ (s t : State) (w : Word) (es : List Event), step s = .next t → t.events = es ++ s.events →
    .cmd w ∈ es → canAccept s = true

/-- R58, first sentence: five commands change no state (the response port apart), so repeating one gives the
same response. -/
def Obligations.ReadingCommandsChangeNothing : Prop :=
  ∀ (i : Instr) (s t : State), canAccept s = true →
    (i = .crcRd ∨ i = .rdStat ∨ (∃ a, i = .tbRd a) ∨ (∃ a, i = .rbRd a) ∨ ∃ a, i = .prsRsp a) →
    exec i s = .next t →
    t = { s with rsp := t.rsp } ∧ t.rsp ≠ none ∧ exec i { t with rsp := none } = .next t

/-- R182: `BAD_OPERAND` is answered by the accept step in exactly these four cases, and then nothing but the
response has changed. -/
def Obligations.BadOperandInExactlyFourCases : Prop :=
  ∀ (i : Instr) (s t : State), Inv s → canAccept s = true → exec i s = .next t →
    ((∃ r, t.rsp = some r ∧ r.code = 0x03#8) ↔
      (∃ a : Byte, i = .tbRd a ∧ s.txlen ≤ a.toNat) ∨ (∃ a : Byte, i = .rbRd a ∧ s.rlen ≤ a.toNat) ∨
      (∃ a, i = .txPut a ∧ s.txlen = s.cfg.txcap) ∨
      (∃ (a : Byte) (b : Half), i = .trRead a b ∧ s.cfg.rxcap < a.toNat)) ∧
    ((∃ r, t.rsp = some r ∧ r.code = 0x03#8) → t = { s with rsp := some ⟨0x03#8, 0#32⟩ })

/-- R39, R28, R30: no command but `RD_STAT` depends on the flags: with other flags before it, its accept step,
and every move of the sequencer, the line and the tick that carries it to its end, gives the same response and
the same other elements. -/
def Obligations.FlagsDecideNothing : Prop :=
  (∀ (i : Instr) (s t : State) (x y : Bool), i ≠ .rdStat → exec i s = .next t →
    ∃ t', exec i { s with tmo := x, ovr := y } = .next t' ∧
      t' = { t with tmo := t'.tmo, ovr := t'.ovr }) ∧
  (∀ (m : Move) (s t : State) (x y : Bool), isBlockMove m = true → runMove m s = .next t →
    ∃ t', runMove m { s with tmo := x, ovr := y } = .next t' ∧
      t' = { t with tmo := t'.tmo, ovr := t'.ovr })

/-- R67, R57: while the block is idle and no command is issued and no reset comes, a move changes nothing of
R20 but `rxq`, by bytes put behind it, `ovr`, and the response, and the response only by the host's taking it. -/
def Obligations.IdleBlockChangesOnlyPendingInput : Prop :=
  ∀ (m : Move) (s t : State), s.phase = .idle → m ≠ .reset → (m = .host → s.rsp ≠ none) →
    runMove m s = .next t →
    blockView t = { blockView s with rxq := t.rxq, ovr := t.ovr } ∧ s.rxq <+: t.rxq ∧
    t.rsp = (if m = .host ∧ s.rst = false then none else s.rsp)

/-- R60: a step is at most one of the spec's atomic steps: it adds at most one event to the history. A step
that adds none leaves `phase`, `cur` and `rsp` as they were, unless the end of `TX` or of `RX` was enabled
before it (R134, R139); one that emits or delivers a byte or counts a tick leaves all three, so it ends no phase;
one that takes a response ends none either and empties `rsp`; a command was accepted by a block that accepts
one; a reset leaves `IDLE` and no response. -/
def Obligations.StepRecordsAtMostOneEvent : Prop :=
  ∀ s t : State, step s = .next t →
    (t.events = s.events ∧
      ((t.phase = s.phase ∧ t.cur = s.cur ∧ t.rsp = s.rsp) ∨ (s.phase = .tx ∧ s.txi = s.txlen) ∨
        (s.phase = .rx ∧ (s.rlen = s.rmax ∨ s.timer = 0#16)))) ∨
    ∃ e, t.events = e :: s.events ∧
      match e with
      | .cmd _ => canAccept s = true
      | .rsp code data => s.rsp = some ⟨code, data⟩ ∧ t.rsp = none ∧ t.phase = s.phase ∧ t.cur = s.cur
      | .tx _ | .rx _ _ | .tick => t.phase = s.phase ∧ t.cur = s.cur ∧ t.rsp = s.rsp
      | .reset => t.phase = .idle ∧ t.cur = .none ∧ t.rsp = none

/-- R9, R38 and log entry 3: no step changes the parameters. -/
def Obligations.ParametersNeverChange : Prop :=
  ∀ s t : State, step s = .next t → t.cfg = s.cfg

/-- R63: no received byte is reordered or duplicated: a move of the line, the tick or the sequencer puts what
it receives behind what was there, the response buffer first and the pending input after it; at the start of
an exchange's read the buffer's old bytes are gone and the pending ones come first. -/
def Obligations.ReceivedBytesKeepTheirOrder : Prop :=
  ∀ (m : Move) (s t : State), Inv s → isBlockMove m = true → runMove m s = .next t →
    ∃ new, received t = received s ++ new ∧
      (s.phase = .rx → t.rbuf ++ t.rxq = s.rbuf ++ s.rxq ++ new) ∧
      (s.phase ≠ .rx → t.phase = .rx → t.rbuf ++ t.rxq = s.rxq ++ new) ∧
      (s.phase ≠ .rx → t.phase ≠ .rx → t.rbuf = s.rbuf ∧ t.rxq = s.rxq ++ new)
end

