-- ==== Sys2Proof/Laws/Bits.lean ====
section
/-!
SUPPORT. The bit helpers as numbers, and the fields of an encoding read back.
-/

namespace Sys2Proof

theorem be16_toNat (x y : Byte) : (be16 x y).toNat = 256 * x.toNat + y.toNat := by
  have h : (be16 x y).toNat = x.toNat <<< 8 ||| y.toNat := BitVec.toNat_append x y
  rw [h, ← Nat.shiftLeft_add_eq_or_of_lt y.isLt, Nat.shiftLeft_eq]
  omega

theorem hi8_toNat (w : Half) : (hi8 w).toNat = w.toNat / 256 := by
  have := w.isLt
  simp only [hi8, BitVec.extractLsb'_toNat, Nat.shiftRight_eq_div_pow]
  omega

theorem lo8_toNat (w : Half) : (lo8 w).toNat = w.toNat % 256 := by simp [lo8]

@[simp] theorem hi8_be16 (x y : Byte) : hi8 (be16 x y) = x := by
  apply BitVec.eq_of_toNat_eq
  have := y.isLt
  rw [hi8_toNat, be16_toNat]
  omega

@[simp] theorem lo8_be16 (x y : Byte) : lo8 (be16 x y) = y := by
  apply BitVec.eq_of_toNat_eq
  have := y.isLt
  rw [lo8_toNat, be16_toNat]
  omega

@[simp] theorem be16_hi8_lo8 (w : Half) : be16 (hi8 w) (lo8 w) = w := by
  apply BitVec.eq_of_toNat_eq
  rw [be16_toNat, hi8_toNat, lo8_toNat]
  omega

/-- The four register bytes in one word, as a parse returns them (41_codec.md R114). -/
theorem be16_append_be16 (x y z w : Byte) : (be16 x y ++ be16 z w : Word) = x ++ y ++ z ++ w := by
  apply BitVec.eq_of_toNat_eq
  have e1 : (be16 x y ++ be16 z w : Word).toNat = (be16 x y).toNat <<< 16 ||| (be16 z w).toNat :=
    BitVec.toNat_append (be16 x y) (be16 z w)
  have e2 : (x ++ y ++ z ++ w : Word).toNat = (x ++ y ++ z).toNat <<< 8 ||| w.toNat :=
    BitVec.toNat_append (x ++ y ++ z) w
  have e3 : (x ++ y ++ z).toNat = (x ++ y).toNat <<< 8 ||| z.toNat := BitVec.toNat_append (x ++ y) z
  have e4 : (x ++ y).toNat = x.toNat <<< 8 ||| y.toNat := BitVec.toNat_append x y
  rw [e1, e2, e3, e4, ← Nat.shiftLeft_add_eq_or_of_lt (be16 z w).isLt, ← Nat.shiftLeft_add_eq_or_of_lt w.isLt,
    ← Nat.shiftLeft_add_eq_or_of_lt z.isLt, ← Nat.shiftLeft_add_eq_or_of_lt y.isLt, be16_toNat, be16_toNat]
  simp only [Nat.shiftLeft_eq]
  omega

theorem commandWord_toNat (op a : Byte) (b : Half) :
    (commandWord op a b).toNat = 2 ^ 24 * op.toNat + 2 ^ 16 * a.toNat + b.toNat := by
  have e1 : (commandWord op a b).toNat = (op ++ a).toNat <<< 16 ||| b.toNat := BitVec.toNat_append (op ++ a) b
  have e2 : (op ++ a).toNat = op.toNat <<< 8 ||| a.toNat := BitVec.toNat_append op a
  rw [e1, e2, ← Nat.shiftLeft_add_eq_or_of_lt b.isLt, ← Nat.shiftLeft_add_eq_or_of_lt a.isLt]
  simp only [Nat.shiftLeft_eq]
  omega

@[simp] theorem commandWord_op (op a : Byte) (b : Half) : (commandWord op a b).extractLsb' 24 8 = op := by
  apply BitVec.eq_of_toNat_eq
  have := op.isLt; have := a.isLt; have := b.isLt
  rw [BitVec.extractLsb'_toNat, commandWord_toNat, Nat.shiftRight_eq_div_pow]
  omega

@[simp] theorem commandWord_a (op a : Byte) (b : Half) : (commandWord op a b).extractLsb' 16 8 = a := by
  apply BitVec.eq_of_toNat_eq
  have := op.isLt; have := a.isLt; have := b.isLt
  rw [BitVec.extractLsb'_toNat, commandWord_toNat, Nat.shiftRight_eq_div_pow]
  omega

@[simp] theorem commandWord_b (op a : Byte) (b : Half) : (commandWord op a b).extractLsb' 0 16 = b := by
  apply BitVec.eq_of_toNat_eq
  have := op.isLt; have := a.isLt; have := b.isLt
  rw [BitVec.extractLsb'_toNat, commandWord_toNat, Nat.shiftRight_eq_div_pow]
  omega

/-- Every word is the command word of its three fields (30_encoding.md R71). -/
theorem commandWord_fields (w : Word) :
    commandWord (w.extractLsb' 24 8) (w.extractLsb' 16 8) (w.extractLsb' 0 16) = w := by
  apply BitVec.eq_of_toNat_eq
  have := w.isLt
  rw [commandWord_toNat, BitVec.extractLsb'_toNat, BitVec.extractLsb'_toNat, BitVec.extractLsb'_toNat]
  simp only [Nat.shiftRight_eq_div_pow]
  omega

@[simp] theorem reverseBits_reverseBits (v : Byte) : reverseBits (reverseBits v) = v := by
  revert v; decide

/-- The ten bits of a character are read back as it (30_encoding.md R80). -/
theorem decode_charBits (v : Byte) : decode (.line (.char (charBits v))) = .ok (.serialChar v) := by
  have h : (charBits v).getLsbD 9 = false ∧ (charBits v).getLsbD 0 = true ∧
      reverseBits ((charBits v).extractLsb' 1 8) = v := by
    revert v; decide +kernel
  simp only [decode, decodeChar, h.1, h.2.1, h.2.2, and_self, if_true]

end Sys2Proof
end

