-- ==== Sys2Proof/Laws/State.lean ====
section
/-!
SUPPORT. One lemma per field per shared update of the state, so that no proof unfolds a record update.
-/

namespace Sys2Proof.Machine

open Sys2Proof

section

variable (s : State)

/-! ### The lengths -/

theorem txlen_eq_length : s.txlen = s.txbuf.length := rfl
theorem rlen_eq_length : s.rlen = s.rbuf.length := rfl

/-! ### `record` -/

@[simp] theorem record_cfg (e : Event) : (record e s).cfg = s.cfg := rfl
@[simp] theorem record_crc (e : Event) : (record e s).crc = s.crc := rfl
@[simp] theorem record_txbuf (e : Event) : (record e s).txbuf = s.txbuf := rfl
@[simp] theorem record_rxq (e : Event) : (record e s).rxq = s.rxq := rfl
@[simp] theorem record_ovr (e : Event) : (record e s).ovr = s.ovr := rfl
@[simp] theorem record_rbuf (e : Event) : (record e s).rbuf = s.rbuf := rfl
@[simp] theorem record_tmo (e : Event) : (record e s).tmo = s.tmo := rfl
@[simp] theorem record_phase (e : Event) : (record e s).phase = s.phase := rfl
@[simp] theorem record_cur (e : Event) : (record e s).cur = s.cur := rfl
@[simp] theorem record_txi (e : Event) : (record e s).txi = s.txi := rfl
@[simp] theorem record_rmax (e : Event) : (record e s).rmax = s.rmax := rfl
@[simp] theorem record_timer (e : Event) : (record e s).timer = s.timer := rfl
@[simp] theorem record_rsp (e : Event) : (record e s).rsp = s.rsp := rfl
@[simp] theorem record_rst (e : Event) : (record e s).rst = s.rst := rfl
@[simp] theorem record_events (e : Event) : (record e s).events = e :: s.events := rfl
@[simp] theorem record_program (e : Event) : (record e s).program = s.program := rfl
@[simp] theorem record_wire (e : Event) : (record e s).wire = s.wire := rfl
@[simp] theorem record_schedule (e : Event) : (record e s).schedule = s.schedule := rfl
@[simp] theorem record_draws (e : Event) : (record e s).draws = s.draws := rfl
@[simp] theorem record_txlen (e : Event) : (record e s).txlen = s.txlen := rfl
@[simp] theorem record_rlen (e : Event) : (record e s).rlen = s.rlen := rfl

/-! ### `respond` -/

@[simp] theorem respond_cfg (c : Byte) (d : Word) : (respond c d s).cfg = s.cfg := rfl
@[simp] theorem respond_crc (c : Byte) (d : Word) : (respond c d s).crc = s.crc := rfl
@[simp] theorem respond_txbuf (c : Byte) (d : Word) : (respond c d s).txbuf = s.txbuf := rfl
@[simp] theorem respond_rxq (c : Byte) (d : Word) : (respond c d s).rxq = s.rxq := rfl
@[simp] theorem respond_ovr (c : Byte) (d : Word) : (respond c d s).ovr = s.ovr := rfl
@[simp] theorem respond_rbuf (c : Byte) (d : Word) : (respond c d s).rbuf = s.rbuf := rfl
@[simp] theorem respond_tmo (c : Byte) (d : Word) : (respond c d s).tmo = s.tmo := rfl
@[simp] theorem respond_phase (c : Byte) (d : Word) : (respond c d s).phase = s.phase := rfl
@[simp] theorem respond_cur (c : Byte) (d : Word) : (respond c d s).cur = s.cur := rfl
@[simp] theorem respond_txi (c : Byte) (d : Word) : (respond c d s).txi = s.txi := rfl
@[simp] theorem respond_rmax (c : Byte) (d : Word) : (respond c d s).rmax = s.rmax := rfl
@[simp] theorem respond_timer (c : Byte) (d : Word) : (respond c d s).timer = s.timer := rfl
@[simp] theorem respond_rsp (c : Byte) (d : Word) : (respond c d s).rsp = some ⟨c, d⟩ := rfl
@[simp] theorem respond_rst (c : Byte) (d : Word) : (respond c d s).rst = s.rst := rfl
@[simp] theorem respond_events (c : Byte) (d : Word) : (respond c d s).events = s.events := rfl
@[simp] theorem respond_program (c : Byte) (d : Word) : (respond c d s).program = s.program := rfl
@[simp] theorem respond_wire (c : Byte) (d : Word) : (respond c d s).wire = s.wire := rfl
@[simp] theorem respond_schedule (c : Byte) (d : Word) : (respond c d s).schedule = s.schedule := rfl
@[simp] theorem respond_draws (c : Byte) (d : Word) : (respond c d s).draws = s.draws := rfl
@[simp] theorem respond_txlen (c : Byte) (d : Word) : (respond c d s).txlen = s.txlen := rfl
@[simp] theorem respond_rlen (c : Byte) (d : Word) : (respond c d s).rlen = s.rlen := rfl

/-! ### `flush` -/

@[simp] theorem flush_cfg : (flush s).cfg = s.cfg := rfl
@[simp] theorem flush_crc : (flush s).crc = s.crc := rfl
@[simp] theorem flush_txbuf : (flush s).txbuf = s.txbuf := rfl
@[simp] theorem flush_rxq : (flush s).rxq = [] := rfl
@[simp] theorem flush_ovr : (flush s).ovr = false := rfl
@[simp] theorem flush_rbuf : (flush s).rbuf = s.rbuf := rfl
@[simp] theorem flush_tmo : (flush s).tmo = s.tmo := rfl
@[simp] theorem flush_phase : (flush s).phase = s.phase := rfl
@[simp] theorem flush_cur : (flush s).cur = s.cur := rfl
@[simp] theorem flush_txi : (flush s).txi = s.txi := rfl
@[simp] theorem flush_rmax : (flush s).rmax = s.rmax := rfl
@[simp] theorem flush_timer : (flush s).timer = s.timer := rfl
@[simp] theorem flush_rsp : (flush s).rsp = s.rsp := rfl
@[simp] theorem flush_rst : (flush s).rst = s.rst := rfl
@[simp] theorem flush_events : (flush s).events = s.events := rfl
@[simp] theorem flush_program : (flush s).program = s.program := rfl
@[simp] theorem flush_wire : (flush s).wire = s.wire := rfl
@[simp] theorem flush_schedule : (flush s).schedule = s.schedule := rfl
@[simp] theorem flush_draws : (flush s).draws = s.draws := rfl
@[simp] theorem flush_txlen : (flush s).txlen = s.txlen := rfl
@[simp] theorem flush_rlen : (flush s).rlen = s.rlen := rfl

/-! ### `endCommand` -/

@[simp] theorem endCommand_cfg : (endCommand s).cfg = s.cfg := rfl
@[simp] theorem endCommand_crc : (endCommand s).crc = s.crc := rfl
@[simp] theorem endCommand_txbuf : (endCommand s).txbuf = s.txbuf := rfl
@[simp] theorem endCommand_rxq : (endCommand s).rxq = s.rxq := rfl
@[simp] theorem endCommand_ovr : (endCommand s).ovr = s.ovr := rfl
@[simp] theorem endCommand_rbuf : (endCommand s).rbuf = s.rbuf := rfl
@[simp] theorem endCommand_tmo : (endCommand s).tmo = s.tmo := rfl
@[simp] theorem endCommand_phase : (endCommand s).phase = .idle := rfl
@[simp] theorem endCommand_cur : (endCommand s).cur = .none := rfl
@[simp] theorem endCommand_txi : (endCommand s).txi = s.txi := rfl
@[simp] theorem endCommand_rmax : (endCommand s).rmax = s.rmax := rfl
@[simp] theorem endCommand_timer : (endCommand s).timer = s.timer := rfl
@[simp] theorem endCommand_rsp : (endCommand s).rsp = s.rsp := rfl
@[simp] theorem endCommand_rst : (endCommand s).rst = s.rst := rfl
@[simp] theorem endCommand_events : (endCommand s).events = s.events := rfl
@[simp] theorem endCommand_program : (endCommand s).program = s.program := rfl
@[simp] theorem endCommand_wire : (endCommand s).wire = s.wire := rfl
@[simp] theorem endCommand_schedule : (endCommand s).schedule = s.schedule := rfl
@[simp] theorem endCommand_draws : (endCommand s).draws = s.draws := rfl
@[simp] theorem endCommand_txlen : (endCommand s).txlen = s.txlen := rfl
@[simp] theorem endCommand_rlen : (endCommand s).rlen = s.rlen := rfl

/-! ### `beginTx` -/

@[simp] theorem beginTx_cfg (c : Cur) : (beginTx c s).cfg = s.cfg := rfl
@[simp] theorem beginTx_crc (c : Cur) : (beginTx c s).crc = s.crc := rfl
@[simp] theorem beginTx_txbuf (c : Cur) : (beginTx c s).txbuf = s.txbuf := rfl
@[simp] theorem beginTx_rxq (c : Cur) : (beginTx c s).rxq = s.rxq := rfl
@[simp] theorem beginTx_ovr (c : Cur) : (beginTx c s).ovr = s.ovr := rfl
@[simp] theorem beginTx_rbuf (c : Cur) : (beginTx c s).rbuf = s.rbuf := rfl
@[simp] theorem beginTx_tmo (c : Cur) : (beginTx c s).tmo = s.tmo := rfl
@[simp] theorem beginTx_phase (c : Cur) : (beginTx c s).phase = .tx := rfl
@[simp] theorem beginTx_cur (c : Cur) : (beginTx c s).cur = c := rfl
@[simp] theorem beginTx_txi (c : Cur) : (beginTx c s).txi = 0 := rfl
@[simp] theorem beginTx_rmax (c : Cur) : (beginTx c s).rmax = s.rmax := rfl
@[simp] theorem beginTx_timer (c : Cur) : (beginTx c s).timer = s.timer := rfl
@[simp] theorem beginTx_rsp (c : Cur) : (beginTx c s).rsp = s.rsp := rfl
@[simp] theorem beginTx_rst (c : Cur) : (beginTx c s).rst = s.rst := rfl
@[simp] theorem beginTx_events (c : Cur) : (beginTx c s).events = s.events := rfl
@[simp] theorem beginTx_program (c : Cur) : (beginTx c s).program = s.program := rfl
@[simp] theorem beginTx_wire (c : Cur) : (beginTx c s).wire = s.wire := rfl
@[simp] theorem beginTx_schedule (c : Cur) : (beginTx c s).schedule = s.schedule := rfl
@[simp] theorem beginTx_draws (c : Cur) : (beginTx c s).draws = s.draws := rfl
@[simp] theorem beginTx_txlen (c : Cur) : (beginTx c s).txlen = s.txlen := rfl
@[simp] theorem beginTx_rlen (c : Cur) : (beginTx c s).rlen = s.rlen := rfl

/-! ### `beginRx` -/

@[simp] theorem beginRx_cfg (n : Nat) (k : Half) : (beginRx n k s).cfg = s.cfg := rfl
@[simp] theorem beginRx_crc (n : Nat) (k : Half) : (beginRx n k s).crc = s.crc := rfl
@[simp] theorem beginRx_txbuf (n : Nat) (k : Half) : (beginRx n k s).txbuf = s.txbuf := rfl
@[simp] theorem beginRx_rxq (n : Nat) (k : Half) : (beginRx n k s).rxq = s.rxq.drop n := rfl
@[simp] theorem beginRx_ovr (n : Nat) (k : Half) : (beginRx n k s).ovr = s.ovr := rfl
@[simp] theorem beginRx_rbuf (n : Nat) (k : Half) : (beginRx n k s).rbuf = s.rxq.take n := rfl
@[simp] theorem beginRx_tmo (n : Nat) (k : Half) : (beginRx n k s).tmo = false := rfl
@[simp] theorem beginRx_phase (n : Nat) (k : Half) : (beginRx n k s).phase = .rx := rfl
@[simp] theorem beginRx_cur (n : Nat) (k : Half) : (beginRx n k s).cur = s.cur := rfl
@[simp] theorem beginRx_txi (n : Nat) (k : Half) : (beginRx n k s).txi = s.txi := rfl
@[simp] theorem beginRx_rmax (n : Nat) (k : Half) : (beginRx n k s).rmax = n := rfl
@[simp] theorem beginRx_timer (n : Nat) (k : Half) : (beginRx n k s).timer = k := rfl
@[simp] theorem beginRx_rsp (n : Nat) (k : Half) : (beginRx n k s).rsp = s.rsp := rfl
@[simp] theorem beginRx_rst (n : Nat) (k : Half) : (beginRx n k s).rst = s.rst := rfl
@[simp] theorem beginRx_events (n : Nat) (k : Half) : (beginRx n k s).events = s.events := rfl
@[simp] theorem beginRx_program (n : Nat) (k : Half) : (beginRx n k s).program = s.program := rfl
@[simp] theorem beginRx_wire (n : Nat) (k : Half) : (beginRx n k s).wire = s.wire := rfl
@[simp] theorem beginRx_schedule (n : Nat) (k : Half) : (beginRx n k s).schedule = s.schedule := rfl
@[simp] theorem beginRx_draws (n : Nat) (k : Half) : (beginRx n k s).draws = s.draws := rfl
@[simp] theorem beginRx_txlen (n : Nat) (k : Half) : (beginRx n k s).txlen = s.txlen := rfl
@[simp] theorem beginRx_rlen (n : Nat) (k : Half) : (beginRx n k s).rlen = min n s.rxq.length := List.length_take

/-! ### `loadRequest` -/

@[simp] theorem loadRequest_cfg (a : Byte) (b : Half) : (loadRequest a b s).cfg = s.cfg := rfl
@[simp] theorem loadRequest_crc (a : Byte) (b : Half) : (loadRequest a b s).crc = requestCrc a b := rfl
@[simp] theorem loadRequest_txbuf (a : Byte) (b : Half) : (loadRequest a b s).txbuf = buildReq a b := rfl
@[simp] theorem loadRequest_rxq (a : Byte) (b : Half) : (loadRequest a b s).rxq = s.rxq := rfl
@[simp] theorem loadRequest_ovr (a : Byte) (b : Half) : (loadRequest a b s).ovr = s.ovr := rfl
@[simp] theorem loadRequest_rbuf (a : Byte) (b : Half) : (loadRequest a b s).rbuf = s.rbuf := rfl
@[simp] theorem loadRequest_tmo (a : Byte) (b : Half) : (loadRequest a b s).tmo = s.tmo := rfl
@[simp] theorem loadRequest_phase (a : Byte) (b : Half) : (loadRequest a b s).phase = s.phase := rfl
@[simp] theorem loadRequest_cur (a : Byte) (b : Half) : (loadRequest a b s).cur = s.cur := rfl
@[simp] theorem loadRequest_txi (a : Byte) (b : Half) : (loadRequest a b s).txi = s.txi := rfl
@[simp] theorem loadRequest_rmax (a : Byte) (b : Half) : (loadRequest a b s).rmax = s.rmax := rfl
@[simp] theorem loadRequest_timer (a : Byte) (b : Half) : (loadRequest a b s).timer = s.timer := rfl
@[simp] theorem loadRequest_rsp (a : Byte) (b : Half) : (loadRequest a b s).rsp = s.rsp := rfl
@[simp] theorem loadRequest_rst (a : Byte) (b : Half) : (loadRequest a b s).rst = s.rst := rfl
@[simp] theorem loadRequest_events (a : Byte) (b : Half) : (loadRequest a b s).events = s.events := rfl
@[simp] theorem loadRequest_program (a : Byte) (b : Half) : (loadRequest a b s).program = s.program := rfl
@[simp] theorem loadRequest_wire (a : Byte) (b : Half) : (loadRequest a b s).wire = s.wire := rfl
@[simp] theorem loadRequest_schedule (a : Byte) (b : Half) : (loadRequest a b s).schedule = s.schedule := rfl
@[simp] theorem loadRequest_draws (a : Byte) (b : Half) : (loadRequest a b s).draws = s.draws := rfl
@[simp] theorem loadRequest_txlen (a : Byte) (b : Half) : (loadRequest a b s).txlen = Config.reqLen := rfl
@[simp] theorem loadRequest_rlen (a : Byte) (b : Half) : (loadRequest a b s).rlen = s.rlen := rfl

end

end Sys2Proof.Machine
end

