-- ==== Sys2Proof/Laws/Ops.lean ====
section
/-!
SUPPORT. For each shared operation one lemma that says everything it can do, and the rules by which runs over
given moves are computed: a move never looks at the moves to come.
-/

namespace Sys2Proof.Machine

open Sys2Proof

/-! ### The command port -/

theorem canAccept_iff (s : State) :
    canAccept s = true ↔ s.phase = .idle ∧ s.rsp = none ∧ s.rst = false := by
  simp [canAccept, cmdReady, and_assoc]

theorem accept_ready {s : State} (h : canAccept s = true) (work : State → State) :
    accept work s = .next (work s) := by simp [accept, h]

theorem accept_held {s : State} (h : canAccept s = false) (work : State → State) :
    accept work s = .next s := by simp [accept, h]

/-- A parse answers the four register bytes, or the length of a buffer that is too short. -/
theorem respondParse_cases (s : State) :
    (s.rlen < 7 ∧ respondParse s = respond codeShortResponse (BitVec.ofNat 32 s.rlen) s) ∨
    ∃ b3 b4 b5 b6 : Byte, 7 ≤ s.rlen ∧ s.rbuf[3]? = some b3 ∧ s.rbuf[4]? = some b4 ∧
      s.rbuf[5]? = some b5 ∧ s.rbuf[6]? = some b6 ∧
      respondParse s = respond codeOk (be16 b3 b4 ++ be16 b5 b6) s := by
  unfold respondParse State.rlen raiseShortResponse State.rlen
  generalize s.rbuf = l
  match l with
  | [] | [_] | [_, _] | [_, _, _] | [_, _, _, _] | [_, _, _, _, _] | [_, _, _, _, _, _] =>
    left; simp [parseRsp]
  | _ :: _ :: _ :: b3 :: b4 :: b5 :: b6 :: _ => right; exact ⟨b3, b4, b5, b6, by simp [parseRsp]⟩

/-- A buffer read answers the byte at a legal index and `BAD_OPERAND` at any other. -/
theorem respondByte_cases (buf : List Byte) (a : Byte) (s : State) :
    (∃ v, buf[a.toNat]? = some v ∧ respondByte buf a s = respond codeOk (v.setWidth 32) s) ∨
    (buf.length ≤ a.toNat ∧ respondByte buf a s = respond codeBadOperand 0#32 s) := by
  unfold respondByte memRead
  cases h : buf[a.toNat]? with
  | some v => exact .inl ⟨v, rfl, rfl⟩
  | none => exact .inr ⟨by simpa using h, rfl⟩

/-! ### The sequencer -/

/-- The sequencer does nothing, emits a byte, ends `TX` or ends `RX`. -/
theorem seqStep_cases (s : State) :
    seqStep s = s ∨
    (∃ v, s.rst = false ∧ s.phase = .tx ∧ s.txbuf[s.txi]? = some v ∧
      seqStep s = { s with txi := s.txi + 1, events := .tx v :: s.events }) ∨
    (s.rst = false ∧ s.phase = .tx ∧ s.txi = s.txlen ∧ seqStep s = endTx s) ∨
    (s.rst = false ∧ s.phase = .rx ∧ (s.rlen = s.rmax ∨ s.timer = 0#16) ∧ seqStep s = endRx s) := by
  unfold seqStep
  split
  · exact .inl rfl
  · next hr =>
    have hr : s.rst = false := by simpa using hr
    split
    · exact .inl rfl
    · next hp =>
      split
      · next v hv => exact .inr (.inl ⟨v, hr, hp, hv, rfl⟩)
      · split
        · next ht => exact .inr (.inr (.inl ⟨hr, hp, ht, rfl⟩))
        · exact .inl rfl
    · next hp =>
      split
      · next hd => exact .inr (.inr (.inr ⟨hr, hp, by simpa [readDone] using hd, rfl⟩))
      · exact .inl rfl

theorem seqStep_emit {s : State} {v : Byte} (hr : s.rst = false) (hp : s.phase = .tx)
    (hv : s.txbuf[s.txi]? = some v) :
    seqStep s = { s with txi := s.txi + 1, events := .tx v :: s.events } := by
  unfold seqStep
  rw [if_neg (by simp [hr]), hp]
  dsimp only
  rw [hv]
  simp [record, hp]

theorem seqStep_endTx {s : State} (hr : s.rst = false) (hp : s.phase = .tx) (ht : s.txi = s.txlen) :
    seqStep s = endTx s := by
  have hv : s.txbuf[s.txi]? = none := by simp [ht, State.txlen]
  unfold seqStep
  rw [if_neg (by simp [hr]), hp]
  dsimp only
  rw [hv]
  exact if_pos ht

theorem seqStep_endRx {s : State} (hr : s.rst = false) (hp : s.phase = .rx)
    (hd : s.rlen = s.rmax ∨ s.timer = 0#16) : seqStep s = endRx s := by
  have h : readDone s = true := by simpa [readDone] using hd
  unfold seqStep
  rw [if_neg (by simp [hr]), hp]
  exact if_pos h

theorem seqStep_wait {s : State} (hp : s.phase = .rx) (h1 : s.rlen ≠ s.rmax) (h2 : s.timer ≠ 0#16) :
    seqStep s = s := by
  have h : readDone s = false := by simp [readDone, h1, h2]
  unfold seqStep
  split
  · rfl
  · rw [hp]
    exact if_neg (by simp [h])

/-- The end of `TX` of a write. -/
theorem endTx_write {s : State} (h : s.cur = .write) : endTx s = respond codeOk 0#32 (endCommand s) := by
  simp [endTx, h]

/-- The end of `TX` of any other command. -/
theorem endTx_other {s : State} (h : s.cur ≠ .write) :
    endTx s = beginRx s.cfg.xmax Config.tRespTicks s := by
  unfold endTx; split <;> simp_all

/-- The end of `RX` of a read. -/
theorem endRx_read {s : State} (h : s.cur = .read) :
    endRx s = respond codeOk (readData { s with tmo := readTimedOut s })
      (endCommand { s with tmo := readTimedOut s }) := by
  simp [endRx, h]

/-- The end of `RX` of any other command. -/
theorem endRx_other {s : State} (h : s.cur ≠ .read) :
    endRx s = respondParse (endCommand { s with tmo := readTimedOut s }) := by
  unfold endRx; dsimp only; split <;> simp_all

/-! ### The line and the tick -/

/-- A line step in reset does nothing; else the byte goes to the read, to the pending input, or is lost. -/
theorem lineStep_cases (v : Byte) (s : State) :
    (s.rst = true ∧ lineStep v s = s) ∨
    (s.rst = false ∧ s.phase = .rx ∧ s.rlen < s.rmax ∧
      lineStep v s = { s with rbuf := s.rbuf ++ [v], events := .rx v true :: s.events }) ∨
    (s.rst = false ∧ ¬ (s.phase = .rx ∧ s.rlen < s.rmax) ∧ s.rxq.length < s.cfg.rxdepth ∧
      lineStep v s = { s with rxq := s.rxq ++ [v], events := .rx v true :: s.events }) ∨
    (s.rst = false ∧ ¬ (s.phase = .rx ∧ s.rlen < s.rmax) ∧ s.cfg.rxdepth ≤ s.rxq.length ∧
      lineStep v s = { s with ovr := true, events := .rx v false :: s.events }) := by
  unfold lineStep
  split
  · next h => exact .inl ⟨h, rfl⟩
  · next h =>
    have h : s.rst = false := by simpa using h
    split
    · next hp => exact .inr (.inl ⟨h, hp.1, hp.2, rfl⟩)
    · next hp =>
      split
      · next hq => exact .inr (.inr (.inl ⟨h, hp, hq, rfl⟩))
      · next hq => exact .inr (.inr (.inr ⟨h, hp, Nat.le_of_not_lt hq, rfl⟩))

theorem lineStep_reset (v : Byte) {s : State} (h : s.rst = true) : lineStep v s = s := if_pos h

theorem lineStep_read (v : Byte) {s : State} (h : s.rst = false) (hp : s.phase = .rx) (hl : s.rlen < s.rmax) :
    lineStep v s = { s with rbuf := s.rbuf ++ [v], events := .rx v true :: s.events } :=
  (if_neg (by simp [h])).trans (if_pos ⟨hp, hl⟩)

theorem lineStep_queue (v : Byte) {s : State} (h : s.rst = false) (hp : ¬ (s.phase = .rx ∧ s.rlen < s.rmax))
    (hq : s.rxq.length < s.cfg.rxdepth) :
    lineStep v s = { s with rxq := s.rxq ++ [v], events := .rx v true :: s.events } :=
  (if_neg (by simp [h])).trans ((if_neg hp).trans (if_pos hq))

theorem lineStep_drop (v : Byte) {s : State} (h : s.rst = false) (hp : ¬ (s.phase = .rx ∧ s.rlen < s.rmax))
    (hq : s.cfg.rxdepth ≤ s.rxq.length) :
    lineStep v s = { s with ovr := true, events := .rx v false :: s.events } :=
  (if_neg (by simp [h])).trans ((if_neg hp).trans (if_neg (Nat.not_lt.2 hq)))

/-- A line step neither reads nor writes what still stands on the line. -/
theorem lineStep_wire (v : Byte) (s : State) (w : List Byte) :
    lineStep v { s with wire := w } = { lineStep v s with wire := w } := by
  obtain ⟨h, e⟩ | ⟨h, hp, hl, e⟩ | ⟨h, hp, hq, e⟩ | ⟨h, hp, hq, e⟩ := lineStep_cases v s <;> rw [e]
  · exact lineStep_reset v h
  · exact lineStep_read v h hp hl
  · exact lineStep_queue v h hp hq
  · exact lineStep_drop v h hp hq

@[simp] theorem carry_nil (s : State) : carry [] s = s := rfl

@[simp] theorem carry_cons (v : Byte) (rest : List Byte) (s : State) :
    carry (v :: rest) s = lineStep v { s with wire := rest ++ s.wire } := rfl

theorem wireStep_nil {s : State} (h : s.wire = []) : wireStep s = s := by simp only [wireStep, h]

theorem wireStep_cons {s : State} {v : Byte} {rest : List Byte} (h : s.wire = v :: rest) :
    wireStep s = lineStep v { s with wire := rest } := by simp only [wireStep, h]

/-- The arrival of what stands on the line is the arrival of one more frame on an empty line. -/
theorem wireStep_eq_carry (s : State) : wireStep s = carry s.wire { s with wire := [] } := by
  cases h : s.wire with
  | nil => rw [wireStep_nil h, carry_nil, ← h]
  | cons v rest => rw [wireStep_cons h, carry_cons, List.append_nil]

/-- To carry an item is at most one line step (20_memory.md R60 (e)). -/
theorem carry_cases (bytes : List Byte) (s : State) :
    carry bytes s = s ∨ ∃ v w, carry bytes s = lineStep v { s with wire := w } := by
  cases bytes with
  | nil => exact .inl rfl
  | cons v rest => exact .inr ⟨v, _, rfl⟩

@[simp] theorem delivered_nil (s : State) : delivered [] s = s := by simp [delivered]

/-- What is delivered first goes where the line step puts it. -/
theorem delivered_cons {s : State} (h : s.rst = false) (v : Byte) (bytes : List Byte) :
    delivered (v :: bytes) s = delivered bytes (lineStep v s) := by
  obtain ⟨h', -⟩ | ⟨-, hp, hl, e⟩ | ⟨-, hp, hq, e⟩ | ⟨-, hp, hq, e⟩ := lineStep_cases v s
  · simp [h] at h'
  · have hw : wanted s = (s.rmax - (s.rlen + 1)) + 1 := by simp only [wanted, hp, if_true]; omega
    have hw' : wanted { s with rbuf := s.rbuf ++ [v], events := .rx v true :: s.events } =
        s.rmax - (s.rlen + 1) := by simp [wanted, hp, State.rlen]
    simp only [delivered, e, hw, hw']
    generalize s.rmax - (s.rlen + 1) = k
    have hk : k + 1 + (s.cfg.rxdepth - s.rxq.length) = k + (s.cfg.rxdepth - s.rxq.length) + 1 := by omega
    simp [List.mapIdx_cons, hk]
  · have hw : wanted s = 0 := by simp only [wanted]; split <;> simp_all
    have hw' : wanted { s with rxq := s.rxq ++ [v], events := .rx v true :: s.events } = 0 := hw
    have hr : s.cfg.rxdepth - s.rxq.length = (s.cfg.rxdepth - (s.rxq.length + 1)) + 1 := by omega
    simp only [delivered, e, hw, hw', List.length_append, List.length_singleton] at hr ⊢
    simp [List.mapIdx_cons, hr]
  · have hw : wanted s = 0 := by simp only [wanted]; split <;> simp_all
    have hw' : wanted { s with ovr := true, events := .rx v false :: s.events } = 0 := hw
    have hr : s.cfg.rxdepth - s.rxq.length = 0 := by omega
    simp only [delivered, e, hw, hw', hr]
    simp [List.mapIdx_cons]

/-- One byte delivered is one line step. -/
theorem delivered_one {s : State} (h : s.rst = false) (v : Byte) : delivered [v] s = lineStep v s := by
  rw [delivered_cons h, delivered_nil]

theorem lineStep_rst (v : Byte) (s : State) : (lineStep v s).rst = s.rst := by
  obtain ⟨-, e⟩ | ⟨-, -, -, e⟩ | ⟨-, -, -, e⟩ | ⟨-, -, -, e⟩ := lineStep_cases v s <;> rw [e]

/-- A tick in reset does nothing; else it is recorded, and counts the timer of a read down to 0. -/
theorem tickStep_cases (s : State) :
    (s.rst = true ∧ tickStep s = s) ∨
    (s.rst = false ∧ s.phase = .rx ∧ s.timer ≠ 0#16 ∧
      tickStep s = { s with timer := s.timer - 1#16, events := .tick :: s.events }) ∨
    (s.rst = false ∧ (s.phase ≠ .rx ∨ s.timer = 0#16) ∧
      tickStep s = { s with events := .tick :: s.events }) := by
  unfold tickStep
  split
  · next h => exact .inl ⟨h, rfl⟩
  · next h =>
    have h : s.rst = false := by simpa using h
    dsimp only
    split
    · next hp => exact .inr (.inl ⟨h, hp.1, hp.2, rfl⟩)
    · next hp =>
      refine .inr (.inr ⟨h, ?_, rfl⟩)
      by_cases h1 : s.phase = .rx
      · right
        by_contra h2
        exact hp ⟨h1, h2⟩
      · exact .inl h1

/-! ### The moves -/

/-- The host takes the response when there is one. -/
theorem hostMove_take {s : State} {r : Response} (hr : s.rst = false) (h : s.rsp = some r) :
    hostMove s = .next (takeResponse r s) := by simp [hostMove, hr, h]

/-- The host issues the next command of its program when the block accepts. -/
theorem hostMove_issue {s : State} {w : Word} {ws : List Word} (h : canAccept s = true)
    (hp : s.program = w :: ws) : hostMove s = acceptWord w { s with program := ws } := by
  obtain ⟨-, h1, h2⟩ := (canAccept_iff s).1 h
  unfold hostMove
  rw [if_neg (by simp [h2])]
  split
  · next h3 => simp [h1] at h3
  · rw [if_pos h]
    simp only [takeWord, hp]

/-- The host issues a free word when it has no program. -/
theorem hostMove_free {s : State} (h : canAccept s = true) (hp : s.program = []) :
    hostMove s = acceptWord (Config.freeWord s.draws) { s with draws := s.draws + 1 } := by
  obtain ⟨-, h1, h2⟩ := (canAccept_iff s).1 h
  unfold hostMove
  rw [if_neg (by simp [h2])]
  split
  · next h3 => simp [h1] at h3
  · rw [if_pos h]
    simp only [takeWord, hp]

/-- The host is held while the block does not accept. -/
theorem hostMove_held {s : State} (h : canAccept s = false) (h1 : s.rsp = none) : hostMove s = .next s := by
  unfold hostMove
  split
  · rfl
  · rw [h1]
    exact if_neg (by simp [h])

/-- Everything a host move can do: nothing, take the response, or issue a word to a block that accepts. -/
theorem hostMove_cases (s : State) :
    hostMove s = .next s ∨
    (∃ r, s.rst = false ∧ s.rsp = some r ∧ hostMove s = .next (takeResponse r s)) ∨
    (∃ (w : Word) (ws : List Word) (n : Nat), canAccept s = true ∧
      hostMove s = acceptWord w { s with program := ws, draws := n }) := by
  cases hc : canAccept s with
  | true =>
    cases hp : s.program with
    | nil => exact .inr (.inr ⟨_, s.program, _, rfl, hostMove_free hc hp⟩)
    | cons w ws => exact .inr (.inr ⟨w, ws, s.draws, rfl, hostMove_issue hc hp⟩)
  | false =>
    cases h : s.rsp with
    | none => exact .inl (hostMove_held hc h)
    | some r =>
      cases hr : s.rst with
      | true => exact .inl (by unfold hostMove; exact if_pos hr)
      | false => exact .inr (.inl ⟨r, rfl, rfl, hostMove_take hr h⟩)

/-- An accepted word: its instruction's meaning, or `ILLEGAL_CMD`. -/
theorem acceptWord_of_ok {w : Word} {i : Instr} (h : decode (.word w) = .ok i) (s : State) :
    acceptWord w s = exec i (record (.cmd w) s) := by simp only [acceptWord, h]

theorem acceptWord_of_error {w : Word} {e : DecodeError} (h : decode (.word w) = .error e) (s : State) :
    acceptWord w s = .next (raiseIllegalCmd (record (.cmd w) s)) := by simp only [acceptWord, h]

/-- Everything a command does when the block accepts is to pass through `accept`; when it does not, nothing. -/
theorem exec_command {i : Instr} (h : isCommand i = true) : ∃ work, ∀ s, exec i s = accept work s := by
  cases i with
  | reqFrame a b c => cases h
  | rspFrame a b c d e => cases h
  | serialChar v => cases h
  | _ => exact ⟨_, fun _ => rfl⟩

/-- What a command word decodes to is a command. -/
theorem isCommand_of_word {w : Word} {i : Instr} (h : decode (.word w) = .ok i) : isCommand i = true := by
  simp only [decode, decodeCommand] at h
  split at h <;> cases h <;> rfl

/-- What an item on the line decodes to is carried by the line. -/
theorem exec_of_line {item : LineItem} {i : Instr} (h : decode (.line item) = .ok i) :
    ∃ bytes, ∀ s, exec i s = .next (carry bytes s) := by
  cases i with
  | reqFrame a b c => exact ⟨_, fun _ => rfl⟩
  | rspFrame a b c d e => exact ⟨_, fun _ => rfl⟩
  | serialChar v => exact ⟨[v], fun _ => rfl⟩
  | _ =>
    cases item with
    | frame bs =>
      simp only [decode] at h
      unfold decodeFrame at h
      split at h
      · split at h <;> cases h
      · cases h
      · cases h
    | char bits =>
      simp only [decode, decodeChar] at h
      split at h <;> cases h

/-- Everything a line move can do: draw a free value, and carry bytes. -/
theorem lineMove_cases (item : LineItem) (s : State) :
    ∃ (bytes : List Byte) (n : Nat), lineMove item s = .next (carry bytes { s with draws := n }) := by
  unfold lineMove
  cases h : decode (.line item) with
  | ok i =>
    obtain ⟨bytes, hb⟩ := exec_of_line h
    exact ⟨bytes, s.draws, hb s⟩
  | error _ =>
    cases item with
    | frame bs => exact ⟨bs, s.draws, rfl⟩
    | char bits =>
      simp only [lineNoise]
      cases Config.malformed s.draws with
      | some v => exact ⟨[v], s.draws + 1, rfl⟩
      | none => exact ⟨[], s.draws + 1, rfl⟩

end Sys2Proof.Machine
end

