-- ==== Sys2Proof/Laws/Memory.lean ====
section
/-!
SUPPORT. Every operation on the three byte stores keeps their canonical form, and the stores are read as they
were written.
-/

namespace Sys2Proof.Machine

open Sys2Proof

/-- The stores after reset have the canonical form. -/
theorem Memory.wf_reset : Memory.wf State.reset := by decide

@[simp] theorem buildReq_length (a : Byte) (b : Half) : (buildReq a b).length = Config.reqLen := rfl

theorem Memory.wf_lineStep {v : Byte} {s : State} (h : Memory.wf s) (hr : s.phase = .rx → s.rmax ≤ s.cfg.rxcap) :
    Memory.wf (lineStep v s) := by
  obtain ⟨-, e⟩ | ⟨-, hp, hl, e⟩ | ⟨-, -, hq, e⟩ | ⟨-, -, -, e⟩ := lineStep_cases v s
  · rwa [e]
  · rw [e]
    refine ⟨h.1, ?_, h.2.2⟩
    have := hr hp
    simp only [State.rlen] at hl
    simp only [List.length_append, List.length_singleton]
    omega
  · rw [e]
    refine ⟨h.1, h.2.1, ?_⟩
    simpa using hq
  · rwa [e]

theorem Memory.wf_carry {bytes : List Byte} {s : State} (h : Memory.wf s)
    (hr : s.phase = .rx → s.rmax ≤ s.cfg.rxcap) : Memory.wf (carry bytes s) := by
  obtain e | ⟨v, w, e⟩ := carry_cases bytes s
  · rwa [e]
  · rw [e]
    exact Memory.wf_lineStep (s := { s with wire := w }) h hr

theorem Memory.wf_wireStep {s : State} (h : Memory.wf s) (hr : s.phase = .rx → s.rmax ≤ s.cfg.rxcap) :
    Memory.wf (wireStep s) := by
  rw [wireStep_eq_carry]
  exact Memory.wf_carry (s := { s with wire := [] }) h hr

theorem Memory.wf_beginRx {n : Nat} {k : Half} {s : State} (h : Memory.wf s) (hn : n ≤ s.cfg.rxcap) :
    Memory.wf (beginRx n k s) := by
  have := h.2.2
  simp [Memory.wf, h.1]
  omega

theorem Memory.wf_flush {s : State} (h : Memory.wf s) : Memory.wf (flush s) := by
  simp [Memory.wf, h.1, h.2.1]

theorem Memory.wf_loadRequest {a : Byte} {b : Half} {s : State} (h : Memory.wf s)
    (hc : Config.reqLen ≤ s.cfg.txcap) : Memory.wf (loadRequest a b s) := by
  simp [Memory.wf, hc, h.2.1, h.2.2]

theorem Memory.wf_append {v : Byte} {s : State} (h : Memory.wf s) (hc : s.txlen < s.cfg.txcap) :
    Memory.wf { s with txbuf := memAppend s.txbuf v } := by
  refine ⟨?_, h.2.1, h.2.2⟩
  simpa [memAppend, State.txlen] using hc

/-- A byte is read where it was appended. -/
theorem memRead_memAppend_self (buf : List Byte) (v a : Byte) (h : a.toNat = buf.length) :
    memRead (memAppend buf v) a = some v := by simp [memRead, memAppend, h]

/-- An append leaves every other valid byte as it was. -/
theorem memRead_memAppend_other (buf : List Byte) (v a : Byte) (h : a.toNat < buf.length) :
    memRead (memAppend buf v) a = memRead buf a := by
  simp [memRead, memAppend, List.getElem?_append_left h]

end Sys2Proof.Machine
end

