-- ==== Sys2Proof/Laws/PerInstr.lean ====
section
/-!
SUPPORT. Per instruction: its encoding has the fixed bits of its row of spec/opcode_table.json.
-/

namespace Sys2Proof.Laws.TableBits

open Sys2Proof

/-- The number a parcel is, its bits numbered as the opcode table numbers them. -/
def parcelNat : Parcel → Nat
  | .word w => w.toNat
  | .line (.char bits) => bits.toNat
  | .line (.frame bytes) => bytes.foldl (fun n v => 256 * n + v.toNat) 0

/-- The row's mask and match. -/
def row : Instr → Nat × Nat
  | .nop => (0xFF000000, 0x00000000)
  | .rdStat => (0xFF000000, 0x01000000)
  | .crcInit => (0xFF000000, 0x10000000)
  | .crcByte _ => (0xFF000000, 0x11000000)
  | .crcRd => (0xFF000000, 0x12000000)
  | .bldReq _ _ => (0xFF000000, 0x20000000)
  | .prsRsp _ => (0xFF000000, 0x21000000)
  | .tbRd _ => (0xFF000000, 0x22000000)
  | .rbRd _ => (0xFF000000, 0x23000000)
  | .txClr => (0xFF000000, 0x24000000)
  | .txPut _ => (0xFF000000, 0x25000000)
  | .trFlush => (0xFF000000, 0x30000000)
  | .trWrite => (0xFF000000, 0x31000000)
  | .trRead _ _ => (0xFF000000, 0x32000000)
  | .xchg _ _ => (0xFF000000, 0x40000000)
  | .reqFrame _ _ _ => (0x00FF0000FFFF0000, 0x0003000000020000)
  | .rspFrame _ _ _ _ _ => (0, 0)
  | .serialChar _ => (0x201, 0x001)

/-- The encoding's bits under the row's mask are the row's match. -/
def Statement (i : Instr) : Prop := parcelNat (encode i) &&& (row i).1 = (row i).2

/-- A conjunction of two numbers cut at the same bit is the conjunction of their parts. -/
theorem and_of_parts {k n m p q : Nat} (hm : m < 2 ^ k) (hq : q < 2 ^ k) :
    (2 ^ k * n + m) &&& (2 ^ k * p + q) = 2 ^ k * (n &&& p) + (m &&& q) := by
  have hk : 0 < 2 ^ k := Nat.two_pow_pos k
  rw [← Nat.div_add_mod ((2 ^ k * n + m) &&& (2 ^ k * p + q)) (2 ^ k), Nat.and_div_two_pow, Nat.and_mod_two_pow,
    Nat.mul_add_div hk, Nat.mul_add_div hk, Nat.mul_add_mod, Nat.mul_add_mod, Nat.div_eq_of_lt hm,
    Nat.div_eq_of_lt hq, Nat.mod_eq_of_lt hm, Nat.mod_eq_of_lt hq, Nat.add_zero, Nat.add_zero]

/-- Under a mask of all ones a number that fits is left as it is. -/
theorem and_ones {k n : Nat} (h : n < 2 ^ k) : n &&& (2 ^ k - 1) = n := by
  rw [Nat.and_two_pow_sub_one_eq_mod, Nat.mod_eq_of_lt h]

/-- Under the mask of a command only the opcode is left. -/
theorem commandWord_opcode (op a : Byte) (b : Half) :
    (commandWord op a b).toNat &&& 0xFF000000 = 2 ^ 24 * op.toNat := by
  have hlow : 2 ^ 16 * a.toNat + b.toNat < 2 ^ 24 := by
    have := a.isLt
    have := b.isLt
    omega
  have h := and_of_parts (n := op.toNat) (p := 2 ^ 8 - 1) (q := 0) hlow (by decide)
  rw [and_ones op.isLt, Nat.and_zero] at h
  rw [commandWord_toNat, Nat.add_assoc]
  exact h

theorem nop : Statement .nop := commandWord_opcode _ _ _

theorem rdStat : Statement .rdStat := commandWord_opcode _ _ _

theorem crcInit : Statement .crcInit := commandWord_opcode _ _ _

theorem crcByte (a : Byte) : Statement (.crcByte a) := commandWord_opcode _ _ _

theorem crcRd : Statement .crcRd := commandWord_opcode _ _ _

theorem bldReq (a : Byte) (b : Half) : Statement (.bldReq a b) := commandWord_opcode _ _ _

theorem prsRsp (a : Byte) : Statement (.prsRsp a) := commandWord_opcode _ _ _

theorem tbRd (a : Byte) : Statement (.tbRd a) := commandWord_opcode _ _ _

theorem rbRd (a : Byte) : Statement (.rbRd a) := commandWord_opcode _ _ _

theorem txClr : Statement .txClr := commandWord_opcode _ _ _

theorem txPut (a : Byte) : Statement (.txPut a) := commandWord_opcode _ _ _

theorem trFlush : Statement .trFlush := commandWord_opcode _ _ _

theorem trWrite : Statement .trWrite := commandWord_opcode _ _ _

theorem trRead (a : Byte) (b : Half) : Statement (.trRead a b) := commandWord_opcode _ _ _

theorem xchg (a : Byte) (b : Half) : Statement (.xchg a b) := commandWord_opcode _ _ _

/-- The fixed bytes of a request frame are at their places, whatever the other six. -/
theorem reqFrame (slaveId : Byte) (startAddress crc : Half) :
    Statement (.reqFrame slaveId startAddress crc) := by
  have hx : 256 * (hi8 startAddress).toNat + (lo8 startAddress).toNat < 2 ^ 16 := by
    have := (hi8 startAddress).isLt
    have := (lo8 startAddress).isLt
    omega
  have hy : 256 * (lo8 crc).toNat + (hi8 crc).toNat < 2 ^ 16 := by
    have := (hi8 crc).isLt
    have := (lo8 crc).isLt
    omega
  have h1 := and_of_parts (k := 8) (n := slaveId.toNat) (m := 3) (p := 0) (q := 0xFF) (by decide) (by decide)
  have h2 := and_of_parts (n := 2 ^ 8 * slaveId.toNat + 3) (p := 2 ^ 8 * 0 + 0xFF) (q := 0) hx (by decide)
  have h3 := and_of_parts (k := 16)
    (n := 2 ^ 16 * (2 ^ 8 * slaveId.toNat + 3) + (256 * (hi8 startAddress).toNat + (lo8 startAddress).toNat))
    (m := 2) (p := 2 ^ 16 * (2 ^ 8 * 0 + 0xFF) + 0) (q := 0xFFFF) (by decide) (by decide)
  have h4 := and_of_parts
    (n := 2 ^ 16 * (2 ^ 16 * (2 ^ 8 * slaveId.toNat + 3) +
      (256 * (hi8 startAddress).toNat + (lo8 startAddress).toNat)) + 2)
    (p := 2 ^ 16 * (2 ^ 16 * (2 ^ 8 * 0 + 0xFF) + 0) + 0xFFFF) (q := 0) hy (by decide)
  rw [h3, h2, h1, Nat.and_zero, Nat.and_zero, Nat.and_zero] at h4
  have e : parcelNat (encode (.reqFrame slaveId startAddress crc)) =
      2 ^ 16 * (2 ^ 16 * (2 ^ 16 * (2 ^ 8 * slaveId.toNat + 3) +
        (256 * (hi8 startAddress).toNat + (lo8 startAddress).toNat)) + 2) +
        (256 * (lo8 crc).toNat + (hi8 crc).toNat) := by
    have e1 : (Config.fcRead).toNat = 3 := by decide
    have e2 : (hi8 Config.regCount).toNat = 0 := by decide
    have e3 : (lo8 Config.regCount).toNat = 2 := by decide
    simp only [encode, requestFrame, requestHead, parcelNat, List.cons_append, List.nil_append, List.foldl_cons,
      List.foldl_nil, e1, e2, e3]
    omega
  unfold Statement
  rw [e]
  exact h4

theorem rspFrame (slaveId function byteCount : Byte) (regHigh regLow : Half) :
    Statement (.rspFrame slaveId function byteCount regHigh regLow) := Nat.and_zero _

theorem serialChar (v : Byte) : Statement (.serialChar v) := by
  unfold Statement; revert v; decide

end Sys2Proof.Laws.TableBits
end

