-- ==== Sys2Proof/Laws/Run.lean ====
section
/-!
SUPPORT. Runs over given moves: no move looks at the moves to come, so a run is one move after the other.
-/

namespace Sys2Proof.Machine

open Sys2Proof

/-- The same outcome with another schedule. -/
def reschedule (ms : List Move) : Host.Outcome State Fault Refusal → Host.Outcome State Fault Refusal
  | .next t => .next { t with schedule := ms }
  | .fault r => .fault r
  | .refused r => .refused r

@[simp] theorem reschedule_next (ms : List Move) (t : State) :
    reschedule ms (.next t) = .next { t with schedule := ms } := rfl

theorem lineStep_schedule (v : Byte) (s : State) (ms : List Move) :
    lineStep v { s with schedule := ms } = { lineStep v s with schedule := ms } := by
  obtain ⟨h, e⟩ | ⟨h, hp, hl, e⟩ | ⟨h, hp, hq, e⟩ | ⟨h, hp, hq, e⟩ := lineStep_cases v s <;> rw [e]
  · exact lineStep_reset v h
  · exact lineStep_read v h hp hl
  · exact lineStep_queue v h hp hq
  · exact lineStep_drop v h hp hq

theorem carry_schedule (bytes : List Byte) (s : State) (ms : List Move) :
    carry bytes { s with schedule := ms } = { carry bytes s with schedule := ms } := by
  cases bytes with
  | nil => rfl
  | cons v rest => exact lineStep_schedule v { s with wire := rest ++ s.wire } ms

theorem wireStep_schedule (s : State) (ms : List Move) :
    wireStep { s with schedule := ms } = { wireStep s with schedule := ms } := by
  rw [wireStep_eq_carry, wireStep_eq_carry]
  exact carry_schedule s.wire { s with wire := [] } ms

theorem respondParse_schedule (s : State) (ms : List Move) :
    respondParse { s with schedule := ms } = { respondParse s with schedule := ms } := by
  unfold respondParse; dsimp only; split <;> rfl

theorem respondByte_schedule (buf : List Byte) (a : Byte) (s : State) (ms : List Move) :
    respondByte buf a { s with schedule := ms } = { respondByte buf a s with schedule := ms } := by
  unfold respondByte; split <;> rfl

theorem endTx_schedule (s : State) (ms : List Move) :
    endTx { s with schedule := ms } = { endTx s with schedule := ms } := by
  unfold endTx; dsimp only; split <;> rfl

theorem endRx_schedule (s : State) (ms : List Move) :
    endRx { s with schedule := ms } = { endRx s with schedule := ms } := by
  unfold endRx; dsimp only; split
  · rfl
  · exact respondParse_schedule (endCommand { s with tmo := readTimedOut s }) ms

theorem seqStep_schedule (s : State) (ms : List Move) :
    seqStep { s with schedule := ms } = { seqStep s with schedule := ms } := by
  have e : readDone { s with schedule := ms } = readDone s := rfl
  have e' : ({ s with schedule := ms } : State).txlen = s.txlen := rfl
  unfold seqStep
  rw [e, e']
  dsimp only
  split
  · rfl
  · split
    · rfl
    · split
      · rfl
      · split
        · exact endTx_schedule s ms
        · rfl
    · cases readDone s
      · rfl
      · exact endRx_schedule s ms

theorem tickStep_schedule (s : State) (ms : List Move) :
    tickStep { s with schedule := ms } = { tickStep s with schedule := ms } := by
  unfold tickStep; dsimp only [record]; split <;> [rfl; (split <;> rfl)]

theorem accept_schedule {work : State → State} {s : State} {ms : List Move}
    (h : work { s with schedule := ms } = { work s with schedule := ms }) :
    accept work { s with schedule := ms } = reschedule ms (accept work s) := by
  have e : canAccept { s with schedule := ms } = canAccept s := rfl
  unfold accept
  rw [e]
  split
  · simp [h]
  · rfl

theorem txPut_schedule (a : Byte) (s : State) (ms : List Move) :
    (if ({ s with schedule := ms } : State).txlen < s.cfg.txcap then
        respond codeOk 0#32 { s with txbuf := memAppend s.txbuf a, schedule := ms }
      else raiseBadOperand { s with schedule := ms }) =
    { (if s.txlen < s.cfg.txcap then respond codeOk 0#32 { s with txbuf := memAppend s.txbuf a }
      else raiseBadOperand s) with schedule := ms } := by
  have e : ({ s with schedule := ms } : State).txlen = s.txlen := rfl
  rw [e]
  split <;> rfl

/-- What an instruction does does not depend on the moves to come. -/
theorem exec_schedule (i : Instr) (s : State) (ms : List Move) :
    exec i { s with schedule := ms } = reschedule ms (exec i s) := by
  cases i with
  | prsRsp a => simp only [exec, execPrsRsp]; exact accept_schedule (respondParse_schedule s ms)
  | tbRd a => simp only [exec, execTbRd]; exact accept_schedule (respondByte_schedule s.txbuf a s ms)
  | rbRd a => simp only [exec, execRbRd]; exact accept_schedule (respondByte_schedule s.rbuf a s ms)
  | txPut a => simp only [exec, execTxPut]; exact accept_schedule (txPut_schedule a s ms)
  | trRead a b => simp only [exec, execTrRead]; exact accept_schedule (by dsimp only; split <;> rfl)
  | reqFrame a b c => exact congrArg Host.Outcome.next (carry_schedule _ s ms)
  | rspFrame a b c d e => exact congrArg Host.Outcome.next (carry_schedule _ s ms)
  | serialChar v => exact congrArg Host.Outcome.next (lineStep_schedule v s ms)
  | _ =>
    simp only [exec, execNop, execRdStat, execCrcInit, execCrcByte, execCrcRd, execBldReq, execTxClr, execTrFlush,
      execTrWrite, execXchg]
    exact accept_schedule rfl

theorem lineNoise_schedule (item : LineItem) (s : State) (ms : List Move) :
    lineNoise item { s with schedule := ms } = { lineNoise item s with schedule := ms } := by
  cases item with
  | frame bytes => exact carry_schedule bytes s ms
  | char bits =>
    simp only [lineNoise]
    cases Config.malformed s.draws with
    | none => rfl
    | some v => exact lineStep_schedule v { s with draws := s.draws + 1 } ms

theorem acceptWord_schedule (w : Word) (s : State) (ms : List Move) :
    acceptWord w { s with schedule := ms } = reschedule ms (acceptWord w s) := by
  unfold acceptWord
  split
  · next i _ => exact exec_schedule i (record (.cmd w) s) ms
  · rfl

theorem takeWord_schedule (s : State) (ms : List Move) :
    takeWord { s with schedule := ms } = ((takeWord s).1, { (takeWord s).2 with schedule := ms }) := by
  unfold takeWord
  dsimp only
  split <;> rfl

theorem hostMove_schedule (s : State) (ms : List Move) :
    hostMove { s with schedule := ms } = reschedule ms (hostMove s) := by
  have e : canAccept { s with schedule := ms } = canAccept s := rfl
  unfold hostMove
  rw [e, takeWord_schedule]
  dsimp only
  split
  · rfl
  · split
    · rfl
    · split
      · exact acceptWord_schedule _ _ ms
      · rfl

/-- What a move does does not depend on the moves to come. -/
theorem runMove_schedule (m : Move) (s : State) (ms : List Move) :
    runMove m { s with schedule := ms } = reschedule ms (runMove m s) := by
  cases m with
  | host => exact hostMove_schedule s ms
  | seq => exact congrArg Host.Outcome.next (seqStep_schedule s ms)
  | line item =>
    simp only [runMove, lineMove]
    split
    · next i _ => exact exec_schedule i s ms
    · exact congrArg Host.Outcome.next (lineNoise_schedule item s ms)
  | wire => exact congrArg Host.Outcome.next (wireStep_schedule s ms)
  | tick => exact congrArg Host.Outcome.next (tickStep_schedule s ms)
  | reset => rfl
  | release => rfl

/-- A step takes the first move of the schedule. -/
theorem step_of_schedule {s : State} {m : Move} {ms : List Move} (h : s.schedule = m :: ms) :
    step s = runMove m { s with schedule := ms } := by
  simp only [step, agentStep, takeMove, h]

/-- A step is the move it takes, in a state in which the schedule and the count of free values may differ. -/
theorem step_cases (s : State) :
    ∃ ms n, step s = runMove (takeMove s).1 { s with schedule := ms, draws := n } := by
  cases h : s.schedule with
  | nil => exact ⟨s.schedule, s.draws + 1, by simp only [step, agentStep, takeMove, h]⟩
  | cons m ms => exact ⟨ms, s.draws, by simp only [step, agentStep, takeMove, h]⟩

@[simp] theorem after_nil (s : State) : after [] s = .next { s with schedule := [] } := rfl

@[simp] theorem after_schedule (ms ns : List Move) (s : State) :
    after ms { s with schedule := ns } = after ms s := rfl

theorem run_succ (M : Host.Core) (k : Nat) (s : M.State) :
    M.run (k + 1) s =
      match M.step s with
      | .next t => M.run k t
      | .fault r => .fault r
      | .refused r => .refused r := rfl

/-- A run makes its first move and goes on from there. -/
theorem after_cons (m : Move) (ms : List Move) (s : State) :
    after (m :: ms) s =
      match runMove m s with
      | .next t => after ms t
      | .fault r => .fault r
      | .refused r => .refused r := by
  have e : Sys2Proof.core.step { s with schedule := m :: ms } = reschedule ms (runMove m s) :=
    (step_of_schedule (s := { s with schedule := m :: ms }) rfl).trans (runMove_schedule m s ms)
  refine (run_succ Sys2Proof.core ms.length { s with schedule := m :: ms }).trans ?_
  rw [e]
  cases runMove m s <;> rfl

/-- A run over two lists of moves is one run after the other. -/
theorem after_append (ms ns : List Move) (s : State) :
    after (ms ++ ns) s =
      match after ms s with
      | .next t => after ns t
      | .fault r => .fault r
      | .refused r => .refused r := by
  induction ms generalizing s with
  | nil => rfl
  | cons m ms ih =>
    rw [List.cons_append, after_cons, after_cons]
    cases runMove m s with
    | next t => exact ih t
    | fault r => rfl
    | refused r => rfl

/-! ### Bytes carried by the line -/

/-- The line's move with a well-formed character is one line step. -/
theorem runMove_char (v : Byte) (s : State) : runMove (.line (.char (charBits v))) s = .next (lineStep v s) := by
  simp only [runMove, lineMove, decode_charBits]
  rfl

/-- Bytes carried as single characters are delivered in order. -/
theorem after_charMoves (bytes : List Byte) {s : State} (h : s.rst = false) :
    after (charMoves bytes) s = .next { delivered bytes s with schedule := [] } := by
  induction bytes generalizing s with
  | nil => rw [delivered_nil]; rfl
  | cons v bytes ih =>
    rw [delivered_cons h]
    refine (after_cons _ _ s).trans ?_
    rw [runMove_char]
    exact ih ((lineStep_rst v s).trans h)

/-- Bytes that stand on the line are delivered in order. -/
theorem after_wire (bytes rest : List Byte) {s : State} (h : s.rst = false) (hw : s.wire = bytes ++ rest) :
    after (List.replicate bytes.length .wire) s =
      .next { delivered bytes s with wire := rest, schedule := [] } := by
  induction bytes generalizing s with
  | nil =>
    simp only [List.nil_append] at hw
    rw [delivered_nil, ← hw]
    rfl
  | cons v bytes ih =>
    rw [delivered_cons h, List.length_cons, List.replicate_succ, after_cons]
    have e : runMove .wire s = .next (lineStep v { s with wire := bytes ++ rest }) :=
      congrArg Host.Outcome.next (wireStep_cons hw)
    rw [e]
    have hr : (lineStep v { s with wire := bytes ++ rest }).rst = false := (lineStep_rst v _).trans h
    have hw' : (lineStep v { s with wire := bytes ++ rest }).wire = bytes ++ rest := by rw [lineStep_wire]
    refine (ih hr hw').trans ?_
    rw [lineStep_wire]
    rfl

end Sys2Proof.Machine
end

