-- ==== Sys2Proof/Tests/Slice0.lean ====
section
/-!
SUPPORT. Own tests: the well-formedness smoke, the decoder on words written out from the encodings of
30_encoding.md, one-step tests of every instruction with the values of spec/95_test_vectors.md (V and P
numbers in the comments), and a witness for the hypotheses of every statement.
-/

namespace Sys2Proof.Tests

open Sys2Proof Sys2Proof.Machine

-- One theorem after the other: evaluated side by side, each would hold a thread until the laws are checked.
set_option Elab.async false

/-! ### Helpers -/

/-- The next state of an outcome. -/
def nextOf : Host.Outcome State Fault Refusal → Option State
  | .next s => some s
  | .fault _ => none
  | .refused _ => none

/-- A next state of an outcome that can be evaluated. -/
theorem exists_next {o : Host.Outcome State Fault Refusal} {P : State → Prop} [DecidablePred P]
    (h : (nextOf o).any (fun t => decide (P t)) = true) : ∃ t, o = .next t ∧ P t := by
  cases o with
  | next t => exact ⟨t, rfl, by simpa [nextOf] using h⟩
  | fault r => cases r
  | refused r => simp [nextOf] at h

/-- One step that runs a command word. -/
def stepWord (w : Nat) (s : State) : Option State := nextOf (step (s.withFetchWord 32 w))

/-- A state with one move to come. -/
def withMove (m : Move) (s : State) : State := { s with schedule := [m] }

/-- The response of V30: nine bytes, 0x43668000 in bytes 3 to 6. -/
def v30 : List Byte := [0x01#8, 0x03#8, 0x04#8, 0x43#8, 0x66#8, 0x80#8, 0x00#8, 0x6E#8, 0x68#8]

/-- The request of V20. -/
def v20 : List Byte := [0x01#8, 0x03#8, 0x00#8, 0x00#8, 0x00#8, 0x02#8, 0xC4#8, 0x0B#8]

/-- Sixteen pending bytes. -/
def sixteen : List Byte := List.replicate 16 0x55#8

def withTx (bytes : List Byte) : State := { State.reset with txbuf := bytes }

def withRb (bytes : List Byte) : State := { State.reset with rbuf := bytes }

def withRxq (bytes : List Byte) : State := { State.reset with rxq := bytes }

/-- In `TX`, the next byte to emit at index `i`. -/
def inTx (cur : Cur) (bytes : List Byte) (i : Nat) : State :=
  { State.reset with phase := .tx, cur := cur, txbuf := bytes, txi := i }

/-- In `RX`. -/
def inRx (cur : Cur) (bytes : List Byte) (rmax : Nat) (timer : Half) : State :=
  { State.reset with phase := .rx, cur := cur, rbuf := bytes, rmax := rmax, timer := timer }

/-- The invariant's parts, evaluated, for a state out of reset. -/
def invCheck (s : State) : Bool :=
  decide (Config.Valid s.cfg) && decide (Memory.wf s) && decide (s.phase = .idle ↔ s.cur = .none) &&
  decide (s.phase = .tx → txWf s) && decide (s.phase = .rx → rxWf s) &&
  s.rsp.all (fun r => decide (legalCode r.code)) && !s.rst

/-- The invariant from its evaluated parts. -/
theorem inv_of_checks (s : State) (h : invCheck s = true) : Inv s := by
  simp only [invCheck, Bool.and_eq_true, decide_eq_true_eq, Bool.not_eq_true'] at h
  obtain ⟨⟨⟨⟨⟨⟨h1, h2⟩, h3⟩, h4⟩, h5⟩, h6⟩, h7⟩ := h
  exact ⟨h1, h2, h3, h4, h5, fun r hr => by simpa [hr] using h6, fun hr => by simp [h7] at hr⟩

/-! ### Well-formedness smoke: the one field with a prescribed value (R78, V23) -/

theorem test_wellFormed_reqFrame : (Instr.reqFrame 0x01#8 0x0006#16 0x0A24#16).wellFormed = true := by decide +kernel

theorem test_illFormed_reqFrame_crc : (Instr.reqFrame 0x01#8 0x0006#16 0x240A#16).wellFormed = false := by decide +kernel

/-! ### Decoding, one word per instruction, written out from R71, R75, R78 to R80, and the refusals -/

theorem test_decode_nop : decodeTableWord 32 0b00000000_00000000_0000000000000000 = some .nop := by decide +kernel
theorem test_decode_rdStat : decodeTableWord 32 0b00000001_00000000_0000000000000000 = some .rdStat := by decide +kernel
theorem test_decode_crcInit : decodeTableWord 32 0b00010000_10101011_1100110111101111 = some .crcInit := by decide +kernel
theorem test_decode_crcByte : decodeTableWord 32 0b00010001_00110001_0000000000000000 = some (.crcByte 0x31#8) := by decide +kernel
theorem test_decode_crcRd : decodeTableWord 32 0b00010010_00000000_0000000000000000 = some .crcRd := by decide +kernel
theorem test_decode_bldReq :
    decodeTableWord 32 0b00100000_00000001_0000000000000110 = some (.bldReq 0x01#8 0x0006#16) := by decide +kernel
theorem test_decode_prsRsp : decodeTableWord 32 0b00100001_00000001_0000000000000000 = some (.prsRsp 0x01#8) := by decide +kernel
theorem test_decode_tbRd : decodeTableWord 32 0b00100010_00001000_0000000000000000 = some (.tbRd 8#8) := by decide +kernel
theorem test_decode_rbRd : decodeTableWord 32 0b00100011_00001000_0000000000000000 = some (.rbRd 8#8) := by decide +kernel
theorem test_decode_txClr : decodeTableWord 32 0b00100100_00000000_0000000000000000 = some .txClr := by decide +kernel
theorem test_decode_txPut : decodeTableWord 32 0b00100101_10101010_0000000000000000 = some (.txPut 0xAA#8) := by decide +kernel
theorem test_decode_trFlush : decodeTableWord 32 0b00110000_00000000_0000000000000000 = some .trFlush := by decide +kernel
theorem test_decode_trWrite : decodeTableWord 32 0b00110001_00000000_0000000000000000 = some .trWrite := by decide +kernel
theorem test_decode_trRead :
    decodeTableWord 32 0b00110010_00001001_0000000001100100 = some (.trRead 9#8 100#16) := by decide +kernel
theorem test_decode_xchg :
    decodeTableWord 32 0b01000000_00000001_0000000000000110 = some (.xchg 0x01#8 0x0006#16) := by decide +kernel
theorem test_decode_reqFrame :
    decodeTableWord 64 0b00000001_00000011_00000000_00000110_00000000_00000010_00100100_00001010 =
      some (.reqFrame 0x01#8 0x0006#16 0x0A24#16) := by decide +kernel
theorem test_decode_rspFrame :
    decodeTableWord 56 0b00000001_00000011_00000100_01000011_01100110_10000000_00000000 =
      some (.rspFrame 0x01#8 0x03#8 0x04#8 0x4366#16 0x8000#16) := by decide +kernel
theorem test_decode_serialChar : decodeTableWord 16 0b0_1_0_0_0_1_1_0_0_1 = some (.serialChar 0x31#8) := by decide +kernel

/-- V75 to V78: an unassigned `op`. -/
theorem test_decode_illegalOp :
    decodeTableWord 32 0x02000000 = none ∧ decodeTableWord 32 0xFFFFFFFF = none ∧
    decodeTableWord 32 0x41000000 = none ∧ decodeTableWord 32 0x13000000 = none := by decide +kernel

/-- R78: a frame with another function code is no request frame; R80: a stop bit of 0. -/
theorem test_decode_badItems :
    decode (.line (.frame [0x01#8, 0x04#8, 0x00#8, 0x06#8, 0x00#8, 0x02#8, 0x24#8, 0x0A#8])) =
      .error .notRequest ∧
    decode (.line (.char 0b0_1_0_0_0_1_1_0_0_0#10)) = .error .badCharacter := ⟨rfl, rfl⟩

/-! ### The pure functions -/

/-- V2, V3, V5. -/
theorem test_crcBit :
    crcBit 0x0001#16 = 0xA001#16 ∧ crcBit 0x0002#16 = 0x0001#16 ∧ crcBit 0xFFFF#16 = 0xDFFE#16 := by decide +kernel

/-- V7: the published check value. -/
theorem test_crc16 :
    crc16 [0x31#8, 0x32#8, 0x33#8, 0x34#8, 0x35#8, 0x36#8, 0x37#8, 0x38#8, 0x39#8] = 0x4B37#16 := by decide +kernel

/-- V12. -/
theorem test_crc16_residue : crc16 v30 = 0x0000#16 := by decide +kernel

/-! ### One step of each instruction -/

/-- V71. -/
theorem test_nop : (stepWord 0x00FFFFFF State.reset).map (·.rsp) = some (some ⟨0x00#8, 0#32⟩) := by decide +kernel

/-- V73. -/
theorem test_rdStat :
    (stepWord 0x01000000 { State.reset with
      txbuf := v20, rbuf := v30.take 5, rxq := [0x00#8, 0x01#8], tmo := true }).map (·.rsp) =
      some (some ⟨0x00#8, 0x01020805#32⟩) := by decide +kernel

/-- V74. -/
theorem test_rdStat_overrun :
    (stepWord 0x01000000 { State.reset with rxq := sixteen, ovr := true }).map (·.rsp) =
      some (some ⟨0x00#8, 0x02100000#32⟩) := by decide +kernel

/-- V79. -/
theorem test_crcInit : (stepWord 0x10ABCDEF { State.reset with crc := 0x1234#16 }).map (·.crc) = some 0xFFFF#16 := by decide +kernel

/-- V17. -/
theorem test_crcByte : (stepWord 0x11010000 State.reset).map (·.crc) = some 0x807E#16 := by decide +kernel

/-- V18. -/
theorem test_crcByte_again :
    (stepWord 0x11030000 { State.reset with crc := 0x807E#16 }).map (·.crc) = some 0x2140#16 := by decide +kernel

/-- V16. -/
theorem test_crcRd :
    (stepWord 0x12000000 State.reset).map (fun s => (s.rsp, s.crc)) =
      some (some ⟨0x00#8, 0x0000FFFF#32⟩, 0xFFFF#16) := by decide +kernel

/-- V28. -/
theorem test_bldReq :
    (stepWord 0x20F71234 State.reset).map (fun s => (s.txbuf, s.crc)) =
      some ([0xF7#8, 0x03#8, 0x12#8, 0x34#8, 0x00#8, 0x02#8, 0x94#8, 0x2B#8], 0x2B94#16) := by decide +kernel

/-- V36. -/
theorem test_prsRsp :
    (stepWord 0x21010000 (withRb (0x02#8 :: v30.drop 1))).map (·.rsp) =
      some (some ⟨0x00#8, 0x43668000#32⟩) := by decide +kernel

/-- V39. -/
theorem test_prsRsp_short :
    (stepWord 0x21010000 (withRb (v30.take 6))).map (·.rsp) = some (some ⟨0x01#8, 6#32⟩) := by decide +kernel

/-- V43. -/
theorem test_tbRd :
    (stepWord 0x22060000 (withTx v20)).map (·.rsp) = some (some ⟨0x00#8, 0xC4#32⟩) ∧
    (stepWord 0x22080000 (withTx v20)).map (·.rsp) = some (some ⟨0x03#8, 0#32⟩) := by decide +kernel

/-- V45. -/
theorem test_rbRd :
    (stepWord 0x23080000 (withRb v30)).map (·.rsp) = some (some ⟨0x00#8, 0x68#32⟩) ∧
    (stepWord 0x23090000 (withRb v30)).map (·.rsp) = some (some ⟨0x03#8, 0#32⟩) := by decide +kernel

/-- R121's example. -/
theorem test_txClr : (stepWord 0x24000000 (withTx v20)).map (·.txlen) = some 0 := by decide +kernel

/-- V46. -/
theorem test_txPut : (stepWord 0x25550000 (withTx [0xAA#8])).map (·.txbuf) = some [0xAA#8, 0x55#8] := by decide +kernel

/-- V47. -/
theorem test_txPut_full :
    (stepWord 0x25000000 (withTx v20)).map (fun s => (s.txbuf, s.rsp)) = some (v20, some ⟨0x03#8, 0#32⟩) := by decide +kernel

/-- V49. -/
theorem test_trFlush :
    (stepWord 0x30000000 { State.reset with rxq := [0x01#8, 0x03#8, 0x04#8], ovr := true }).map
      (fun s => (s.rxq, s.ovr, s.rsp)) = some ([], false, some ⟨0x00#8, 0#32⟩) := by decide +kernel

/-- R132: the accept step posts nothing yet. -/
theorem test_trWrite :
    (stepWord 0x31000000 { withTx v20 with txi := 8 }).map (fun s => (s.phase, s.cur, s.txi, s.rsp)) =
      some (.tx, .write, 0, none) := by decide +kernel

/-- V58, the accept step. -/
theorem test_trRead :
    (stepWord 0x32100000 { withRxq [0x01#8, 0x02#8] with tmo := true }).map
      (fun s => (s.rbuf, s.rxq, s.tmo, s.rmax)) = some ([0x01#8, 0x02#8], [], false, 16) := by decide +kernel

/-- V59. -/
theorem test_trRead_tooMany :
    (stepWord 0x32110064 (withRb v30)).map (fun s => (s.rbuf, s.phase, s.rsp)) =
      some (v30, .idle, some ⟨0x03#8, 0#32⟩) := by decide +kernel

/-- V67, the accept step. -/
theorem test_xchg :
    (stepWord 0x40010000 { State.reset with rxq := [0xDE#8, 0xAD#8], ovr := true }).map
      (fun s => (s.txbuf, s.crc, s.rxq, s.ovr)) = some (v20, 0x0BC4#16, [], false) ∧
    (stepWord 0x40010000 State.reset).map (fun s => (s.phase, s.cur, s.rsp)) = some (.tx, .xchg, none) := by
  decide +kernel

/-- V75. -/
theorem test_illegalCmd :
    (stepWord 0x02000000 (withRb v30)).map (fun s => (s.rbuf, s.rsp)) = some (v30, some ⟨0x02#8, 0#32⟩) := by decide +kernel

/-- V61. -/
theorem test_serialChar_full :
    (nextOf (exec (.serialChar 0x7F#8) (withRxq sixteen))).map (fun s => (s.rxq, s.ovr, s.events)) =
      some (sixteen, true, [.rx 0x7F#8 false]) := by decide +kernel

/-- V62. -/
theorem test_serialChar_last :
    (nextOf (exec (.serialChar 0x7F#8) (withRxq (sixteen.drop 1)))).map (fun s => (s.rxq, s.ovr)) =
      some (sixteen.drop 1 ++ [0x7F#8], false) := by decide +kernel

/-- V68: the echo of the request during `TX`: its first byte is pending, the others follow. -/
theorem test_reqFrame :
    (nextOf (step ((inTx .xchg v20 8).withFetchWord 64 0x010300000002C40B))).map (fun s => (s.rxq, s.wire)) =
      some ([0x01#8], v20.drop 1) := by decide +kernel

/-- V66: the first of seven bytes reaches a read that wants nine. -/
theorem test_rspFrame :
    (nextOf (step ((inRx .xchg [] 9 100#16).withFetchWord 56 0x01030443668000))).map (fun s => (s.rbuf, s.wire)) =
      some ([0x01#8], (v30.take 7).drop 1) := by decide +kernel

/-! ### The line, the sequencer and the tick -/

/-- R60 (e), V70: one arrival is one byte. -/
theorem test_wire :
    (nextOf (runMove .wire { inRx .xchg (v30.take 7) 9 0#16 with wire := [0x6E#8, 0x68#8] })).map
      (fun s => (s.rbuf, s.wire)) = some (v30.take 8, [0x68#8]) := by decide +kernel


/-- V50: the first byte of a write. -/
theorem test_seq_emits :
    (nextOf (runMove .seq (inTx .write v20 0))).map (fun s => (s.txi, s.events)) = some (1, [.tx 0x01#8]) := by decide +kernel

/-- V52, the end of the read. -/
theorem test_seq_endsRead :
    (nextOf (runMove .seq (inRx .read [0x01#8, 0x83#8, 0x02#8, 0xC0#8, 0xF1#8] 9 0#16))).map
      (fun s => (s.rsp, s.tmo)) = some (some ⟨0x00#8, 0x105#32⟩, true) := by decide +kernel

/-- V66, the end of the exchange. -/
theorem test_seq_endsXchg :
    (nextOf (runMove .seq (inRx .xchg (v30.take 7) 9 0#16))).map (fun s => (s.rsp, s.tmo)) =
      some (some ⟨0x00#8, 0x43668000#32⟩, true) := by decide +kernel

/-- R200, R201: a reset in the middle of `TX`, released, leaves a block that accepts a command. -/
theorem test_reset_release :
    (nextOf (after [.reset, .release] (inTx .xchg v20 3))).map canAccept = some true := by decide +kernel

/-- R142. -/
theorem test_tick : (nextOf (runMove .tick (inRx .read [] 9 1#16))).map (·.timer) = some 0#16 := by decide +kernel

/-! ### Witnesses: for every statement with hypotheses, states and operands that meet them

A statement whose clauses have hypotheses of their own has one conjunct per clause, at a boundary value. -/

theorem witness_NopRespondsOk :
    canAccept State.reset = true :=
  by decide +kernel

theorem witness_CrcInitLoadsStartValue :
    canAccept State.reset = true :=
  by decide +kernel

theorem witness_CrcByteAdvancesRegister :
    canAccept State.reset = true :=
  by decide +kernel

theorem witness_CrcRdReturnsRegister :
    canAccept State.reset = true :=
  by decide +kernel

theorem witness_BldReqBuildsFrame :
    canAccept State.reset = true :=
  by decide +kernel

theorem witness_TxClrEmptiesTransmitBuffer :
    canAccept State.reset = true :=
  by decide +kernel

theorem witness_TrFlushDiscardsPendingInput :
    canAccept State.reset = true :=
  by decide +kernel

theorem witness_XchgStartsExchange :
    canAccept State.reset = true :=
  by decide +kernel

theorem resetInv : Inv State.reset := inv_of_checks _ (by decide +kernel)

theorem witness_RdStatReturnsStatus :
    Inv State.reset ∧ canAccept State.reset = true :=
  ⟨resetInv, by decide +kernel⟩

theorem witness_PrsRspParsesBuffer :
    (canAccept (withRb (v30.take 7)) = true ∧ 7 ≤ (withRb (v30.take 7)).rlen) ∧
    (canAccept (withRb (v30.take 6)) = true ∧ (withRb (v30.take 6)).rlen < 7) :=
  by decide +kernel

theorem witness_TbRdReadsTransmitBuffer :
    canAccept (withTx v20) = true ∧ (withTx v20).txbuf[(7#8).toNat]? = some 0x0B#8 ∧
    (withTx v20).txlen ≤ (8#8).toNat :=
  by decide +kernel

theorem witness_RbRdReadsResponseBuffer :
    canAccept (withRb v30) = true ∧ (withRb v30).rbuf[(8#8).toNat]? = some 0x68#8 ∧
    (withRb v30).rlen ≤ (9#8).toNat :=
  by decide +kernel

theorem witness_TxPutAppendsByte :
    (Inv (withTx (v20.take 7)) ∧ canAccept (withTx (v20.take 7)) = true ∧
      (withTx (v20.take 7)).txlen ≠ (withTx (v20.take 7)).cfg.txcap) ∧
    (canAccept (withTx v20) = true ∧ (withTx v20).txlen = (withTx v20).cfg.txcap) :=
  ⟨⟨inv_of_checks _ (by decide +kernel), by decide +kernel⟩, by decide +kernel⟩

theorem witness_TrWriteEmitsTransmitBuffer :
    canAccept State.reset = true ∧
    ((inTx .write v20 0).rst = false ∧ (inTx .write v20 0).phase = .tx ∧ (inTx .write v20 0).cur = .write ∧
      (inTx .write v20 0).txi = 0) ∧
    ((inTx .write [] 0).rst = false ∧ (inTx .write [] 0).phase = .tx ∧ (inTx .write [] 0).cur = .write ∧
      (inTx .write [] 0).txi = 0) :=
  by decide +kernel

theorem witness_TrReadStartsAndEndsRead :
    (canAccept State.reset = true ∧ State.reset.cfg.rxcap < (17#8).toNat) ∧
    (canAccept State.reset = true ∧ (16#8).toNat ≤ State.reset.cfg.rxcap) ∧
    (∃ s : State, s.rst = false ∧ s.phase = .rx ∧ s.cur = .read ∧ s.rlen ≠ s.rmax ∧ s.timer ≠ 0#16) ∧
    (∃ s, Inv s ∧ s.phase = .rx ∧ s.cur = .read ∧ s.rlen = s.rmax ∧ s.timer ≠ 0#16) ∧
    (∃ s, Inv s ∧ s.phase = .rx ∧ s.cur = .read ∧ s.rlen ≠ s.rmax ∧ s.timer = 0#16) :=
  ⟨by decide +kernel, by decide +kernel, ⟨inRx .read (v30.take 8) 9 1#16, by decide +kernel⟩,
    ⟨inRx .read v30 9 1#16, inv_of_checks _ (by decide +kernel), by decide +kernel⟩,
    ⟨inRx .read (v30.take 8) 9 0#16, inv_of_checks _ (by decide +kernel), by decide +kernel⟩⟩

/-- The three clauses: one byte short of the count asked for; one byte short of a full queue; a full queue. -/
theorem witness_SerialCharIsOneLineStep :
    (∃ s : State, s.rst = false ∧ s.phase = .rx ∧ s.rlen < s.rmax) ∧
    (∃ s : State, s.rst = false ∧ ¬ (s.phase = .rx ∧ s.rlen < s.rmax) ∧ s.rxq.length < s.cfg.rxdepth) ∧
    (∃ s : State, s.rst = false ∧ ¬ (s.phase = .rx ∧ s.rlen < s.rmax) ∧ ¬ s.rxq.length < s.cfg.rxdepth) :=
  ⟨⟨inRx .read (v30.take 8) 9 1#16, by decide +kernel⟩,
    ⟨{ inRx .read v30 9 1#16 with rxq := sixteen.drop 1 }, by decide +kernel⟩,
    ⟨withRxq sixteen, by decide +kernel⟩⟩

theorem witness_ReqFrameDeliversEightBytes : (inTx .xchg v20 8).rst = false := by decide +kernel

theorem witness_RspFrameDeliversSevenBytes : (inRx .xchg [] 9 100#16).rst = false := by decide +kernel

/-- The two clauses of the hypothesis: no start bit, no stop bit. -/
theorem witness_MalformedCharIsNoneOrAnyByte :
    (0b1_00000000_1#10).getLsbD 9 = true ∧ (0b0_00000000_0#10).getLsbD 0 = false := by decide +kernel

theorem witness_SequencerEmitsNextByte :
    (inTx .write v20 7).rst = false ∧ (inTx .write v20 7).phase = .tx ∧
    (inTx .write v20 7).txbuf[(inTx .write v20 7).txi]? = some 0x0B#8 := by decide +kernel

theorem witness_SequencerEndsTransmission :
    (∃ s : State, s.rst = false ∧ s.phase = .tx ∧ s.txi = s.txlen ∧ s.cur = .write) ∧
    (∃ s : State, s.rst = false ∧ s.phase = .tx ∧ s.txi = s.txlen ∧ s.cur = .xchg) :=
  ⟨⟨inTx .write [] 0, by decide +kernel⟩, ⟨inTx .xchg v20 8, by decide +kernel⟩⟩

/-- Six bytes when the time is up; seven bytes when it is up; eight of nine bytes with one tick left. -/
theorem witness_SequencerEndsExchange :
    (∃ s : State, s.rst = false ∧ s.phase = .rx ∧ s.cur = .xchg ∧ (s.rlen = s.rmax ∨ s.timer = 0#16) ∧
      s.rlen < 7) ∧
    (∃ s : State, s.rst = false ∧ s.phase = .rx ∧ s.cur = .xchg ∧ (s.rlen = s.rmax ∨ s.timer = 0#16) ∧
      7 ≤ s.rlen) ∧
    (∃ s : State, s.rst = false ∧ s.phase = .rx ∧ s.cur = .xchg ∧ s.rlen ≠ s.rmax ∧ s.timer ≠ 0#16) :=
  ⟨⟨inRx .xchg (v30.take 6) 9 0#16, by decide +kernel⟩, ⟨inRx .xchg (v30.take 7) 9 0#16, by decide +kernel⟩,
    ⟨inRx .xchg (v30.take 8) 9 1#16, by decide +kernel⟩⟩

theorem witness_TickCountsReadTimer :
    (∃ s : State, s.rst = false ∧ s.phase = .rx ∧ s.timer ≠ 0#16) ∧
    (∃ s : State, s.rst = false ∧ s.phase = .rx ∧ s.timer = 0#16) ∧
    (∃ s : State, s.rst = false ∧ s.phase ≠ .rx ∧ s.timer ≠ 0#16) :=
  ⟨⟨inRx .read [] 9 1#16, by decide +kernel⟩, ⟨inRx .read [] 9 0#16, by decide +kernel⟩,
    ⟨{ State.reset with timer := 1#16 }, by decide +kernel⟩⟩

theorem witness_HostTakesResponse :
    ∃ (s : State) (r : Response), s.rst = false ∧ s.rsp = some r :=
  ⟨{ State.reset with rsp := some ⟨0x01#8, 5#32⟩ }, ⟨0x01#8, 5#32⟩, by decide +kernel⟩

theorem witness_BusyBlockHoldsHost :
    canAccept (inTx .write v20 0) = false ∧ (inTx .write v20 0).rsp = none ∧ isCommand (.crcByte 1#8) = true := by
  decide +kernel

/-- The first opcode of the first gap and the last of the last gap (R76). -/
theorem witness_UnknownOpcodeIsIllegalCommand :
    (canAccept (withProgram [0x02000000#32] State.reset) = true ∧
      (withProgram [0x02000000#32] State.reset).program = [0x02000000#32]) ∧
    (0x02000000#32).extractLsb' 24 8 ∉ [0x00#8, 0x01#8, 0x10#8, 0x11#8, 0x12#8, 0x20#8, 0x21#8, 0x22#8, 0x23#8,
      0x24#8, 0x25#8, 0x30#8, 0x31#8, 0x32#8, 0x40#8] ∧
    (0xFFFFFFFF#32).extractLsb' 24 8 ∉ [0x00#8, 0x01#8, 0x10#8, 0x11#8, 0x12#8, 0x20#8, 0x21#8, 0x22#8, 0x23#8,
      0x24#8, 0x25#8, 0x30#8, 0x31#8, 0x32#8, 0x40#8] :=
  ⟨⟨rfl, rfl⟩, by simp, by simp⟩

theorem witness_AssertedResetStopsAgents :
    ∃ (s : State) (m : Move), s.rst = true ∧ m ≠ .release ∧ m ≠ .reset :=
  ⟨{ State.reset with rst := true }, .line (.char (charBits 0x55#8)), by decide +kernel⟩

theorem witness_StepRunsDecodedInstruction :
    (∃ (s : State) (w : Word) (ws : List Word) (ms : List Move) (i : Instr), canAccept s = true ∧
      s.schedule = .host :: ms ∧ s.program = w :: ws ∧ decode (.word w) = .ok i) ∧
    (∃ (s : State) (item : LineItem) (ms : List Move) (i : Instr),
      s.schedule = .line item :: ms ∧ decode (.line item) = .ok i) :=
  ⟨⟨withMove .host (withProgram [0x32090064#32] State.reset), 0x32090064#32, [], [], .trRead 9#8 100#16,
      by decide +kernel, rfl, rfl, rfl⟩,
    ⟨withMove (.line (.frame (v30.take 7))) State.reset, .frame (v30.take 7), [],
      .rspFrame 0x01#8 0x03#8 0x04#8 0x4366#16 0x8000#16, rfl, rfl⟩⟩

theorem witness_DecodeOfEncodeIsIdentity :
    (Instr.reqFrame 0x01#8 0x0006#16 0x0A24#16).wellFormed = true ∧
    (Instr.trRead 0xFF#8 0xFFFF#16).wellFormed = true := by decide +kernel

theorem witness_EncodeOfDecodeRestoresBits :
    decode (.line (.char (0b0_10001100_1#10))) = .ok (.serialChar 0x31#8) ∧
    decode (.word 0x00FFFFFF#32) = .ok .nop := ⟨rfl, rfl⟩

theorem witness_CrcCommandsComputeCrc16 : canAccept { State.reset with crc := 0x1234#16 } = true := by
  decide +kernel

theorem witness_OnlyFourCommandsTouchCrc :
    (∃ t, exec (.crcByte 0x01#8) State.reset = .next t ∧ t.crc ≠ State.reset.crc) ∧
    (∃ t, isBlockMove .seq = true ∧ runMove .seq (inTx .xchg v20 8) = .next t) :=
  ⟨⟨_, rfl, by decide +kernel⟩, ⟨_, rfl, rfl⟩⟩

theorem witness_BuiltRequestCarriesItsCrc :
    canAccept State.reset = true ∧ (∃ t, exec (.bldReq 0x01#8 0x0006#16) State.reset = .next t) ∧
    (∃ t, exec (.xchg 0x01#8 0x0006#16) State.reset = .next t) :=
  ⟨by decide +kernel, ⟨_, rfl⟩, ⟨_, rfl⟩⟩

theorem witness_ReadReturnsLongestPrefix :
    ∃ t, Inv State.reset ∧ canAccept State.reset = true ∧ (16#8).toNat ≤ State.reset.cfg.rxcap ∧
      exec (.trRead 16#8 0#16) State.reset = .next t :=
  ⟨_, resetInv, by decide +kernel, by decide +kernel, rfl⟩

theorem witness_TimeoutBoundsWholeRead :
    ∃ (s t : State) (ms : List Move), s.rst = false ∧ s.phase = .rx ∧ (∀ m ∈ ms, isEnvironmentMove m = true) ∧
      after ms s = .next t :=
  ⟨inRx .read [] 9 1#16, _, [.tick, .line (.frame [0x01#8]), .tick], by decide +kernel, by decide +kernel,
    by decide +kernel, rfl⟩

theorem witness_SilentLineTimesOutExchange : Inv State.reset ∧ canAccept State.reset = true :=
  ⟨resetInv, by decide +kernel⟩

theorem witness_NineByteAnswerIsReturned :
    Inv State.reset ∧ canAccept State.reset = true ∧ State.reset.cfg.xmax = 9 :=
  ⟨resetInv, by decide +kernel⟩

theorem witness_EchoIsReturnedAsData :
    Inv State.reset ∧ canAccept State.reset = true ∧ State.reset.cfg.xmax = 9 ∧ 8 ≤ State.reset.cfg.rxdepth :=
  ⟨resetInv, by decide +kernel⟩

theorem witness_ShortExchangeHasTimedOut :
    ∃ s t, Inv s ∧ s.phase = .rx ∧ s.cur = .xchg ∧ runMove .seq s = .next t ∧ t.phase = .idle :=
  ⟨inRx .xchg (v30.take 6) 9 0#16, _, inv_of_checks _ (by decide +kernel), rfl, rfl, rfl, by decide +kernel⟩

/-- The moves of an exchange up to the last byte sent. -/
def sending : List Move := List.replicate 8 .seq

/-- The moves of an exchange's read of V30, and of its end. -/
def reading : List Move := charMoves v30 ++ [.seq]

theorem witness_XchgRefinedByParts :
    ∃ (t u : State) (m1 m2 : List Move), Inv State.reset ∧ canAccept State.reset = true ∧
      (∀ m ∈ m1 ++ m2, isBlockMove m = true) ∧
      after (Move.host :: m1) (withProgram [commandWord 0x40#8 0x01#8 0x0000#16] State.reset) = .next u ∧
      u.phase = .tx ∧ u.txi = u.txlen ∧
      after (Move.host :: m1 ++ [Move.seq] ++ m2)
        (withProgram [commandWord 0x40#8 0x01#8 0x0000#16] State.reset) = .next t ∧
      t.phase = .idle := by
  obtain ⟨u, hu, hp⟩ := exists_next
    (o := after (Move.host :: sending) (withProgram [commandWord 0x40#8 0x01#8 0x0000#16] State.reset))
    (P := fun u => u.phase = .tx ∧ u.txi = u.txlen) (by decide +kernel)
  obtain ⟨t, ht, hq⟩ := exists_next
    (o := after (Move.host :: sending ++ [Move.seq] ++ reading)
      (withProgram [commandWord 0x40#8 0x01#8 0x0000#16] State.reset))
    (P := fun t => t.phase = .idle) (by decide +kernel)
  exact ⟨t, u, sending, reading, resetInv, by decide +kernel, by decide +kernel, hu, hp.1, hp.2, ht, hq⟩

theorem witness_EveryStepKeepsInvariant :
    ∃ s t, Inv s ∧ step s = .next t :=
  ⟨withMove .seq (inTx .xchg v20 8), _, inv_of_checks _ (by decide +kernel), rfl⟩

theorem witness_FairMovesEndEveryCommand :
    FairMoves (fun n => if n % 2 = 0 then .seq else .tick) ∧ Inv (inTx .xchg v20 0) :=
  ⟨⟨fun n => ⟨2 * n, by omega, by simp⟩, fun n => ⟨2 * n + 1, by omega, by simp⟩⟩,
    inv_of_checks _ (by decide +kernel)⟩

theorem witness_BytesLeaveOnlyInTransmission : ∃ t, step (withMove .seq (inTx .write v20 0)) = .next t := ⟨_, rfl⟩

theorem witness_CommandsAcceptedOnlyWhenReady :
    ∃ (s t : State) (w : Word) (es : List Event), step s = .next t ∧ t.events = es ++ s.events ∧ .cmd w ∈ es :=
  ⟨withMove .host (withProgram [0x10000000#32] State.reset), _, 0x10000000#32, [.cmd 0x10000000#32], rfl,
    by decide +kernel, by decide +kernel⟩

theorem witness_ReadingCommandsChangeNothing :
    ∀ i ∈ [Instr.crcRd, .rdStat, .tbRd 7#8, .rbRd 9#8, .prsRsp 0x01#8],
      canAccept State.reset = true ∧
      (i = .crcRd ∨ i = .rdStat ∨ (∃ a, i = .tbRd a) ∨ (∃ a, i = .rbRd a) ∨ ∃ a, i = .prsRsp a) ∧
      ∃ t, exec i State.reset = .next t := by
  intro i hi
  simp only [List.mem_cons, List.not_mem_nil, or_false] at hi
  obtain rfl | rfl | rfl | rfl | rfl := hi <;> exact ⟨by decide +kernel, by simp, _, rfl⟩

/-- The four cases of R182 at their least illegal operand. -/
theorem witness_BadOperandInExactlyFourCases :
    (∃ t, Inv (withTx v20) ∧ canAccept (withTx v20) = true ∧ exec (.tbRd 8#8) (withTx v20) = .next t) ∧
    (∃ t, Inv (withRb v30) ∧ canAccept (withRb v30) = true ∧ exec (.rbRd 9#8) (withRb v30) = .next t) ∧
    (∃ t, Inv (withTx v20) ∧ canAccept (withTx v20) = true ∧ exec (.txPut 0#8) (withTx v20) = .next t) ∧
    (∃ t, Inv State.reset ∧ canAccept State.reset = true ∧ exec (.trRead 17#8 0#16) State.reset = .next t) :=
  ⟨⟨_, inv_of_checks _ (by decide +kernel), by decide +kernel, rfl⟩,
    ⟨_, inv_of_checks _ (by decide +kernel), by decide +kernel, rfl⟩,
    ⟨_, inv_of_checks _ (by decide +kernel), by decide +kernel, rfl⟩,
    ⟨_, resetInv, by decide +kernel, rfl⟩⟩

theorem witness_FlagsDecideNothing :
    (∃ t, Instr.trRead 9#8 100#16 ≠ .rdStat ∧ exec (.trRead 9#8 100#16) State.reset = .next t) ∧
    (∃ t, isBlockMove .seq = true ∧ runMove .seq (inRx .read v30 9 1#16) = .next t) :=
  ⟨⟨_, by decide, rfl⟩, ⟨_, rfl, rfl⟩⟩

/-- A line move, a move that is not the host's with a response waiting, the host taking a response, and the
host held in reset. -/
theorem witness_IdleBlockChangesOnlyPendingInput :
    (∃ (m : Move) (t : State), m ≠ .reset ∧ m ≠ .host ∧ runMove m State.reset = .next t) ∧
    (∃ s t : State, s.phase = .idle ∧ s.rsp ≠ none ∧ runMove .seq s = .next t) ∧
    (∃ s t : State, s.phase = .idle ∧ s.rsp ≠ none ∧ s.rst = false ∧ runMove .host s = .next t) ∧
    (∃ s t : State, s.phase = .idle ∧ s.rsp ≠ none ∧ s.rst = true ∧ runMove .host s = .next t) :=
  ⟨⟨.line (.frame v20), _, by decide, by decide, rfl⟩,
    ⟨{ State.reset with rsp := some ⟨0x00#8, 0#32⟩ }, _, rfl, by decide, rfl⟩,
    ⟨{ State.reset with rsp := some ⟨0x00#8, 0#32⟩ }, _, rfl, by decide, rfl, rfl⟩,
    ⟨{ State.reset with rsp := some ⟨0x00#8, 0#32⟩, rst := true }, _, rfl, by decide, rfl, rfl⟩⟩

/-- A step with an event, and the end of `TX`, which has none. -/
theorem witness_StepRecordsAtMostOneEvent :
    (∃ t, step (withMove (.line (.frame v20)) State.reset) = .next t) ∧
    (∃ t, step (withMove .seq (inTx .xchg v20 8)) = .next t ∧ t.events = [] ∧ t.phase = .rx) :=
  ⟨⟨_, rfl⟩, ⟨_, rfl, by decide +kernel, by decide +kernel⟩⟩

theorem witness_ParametersNeverChange : ∃ t, step (withMove .reset (inTx .write v20 0)) = .next t := ⟨_, rfl⟩

/-- The three clauses: in `RX`, from `TX` into `RX`, neither. -/
theorem witness_ReceivedBytesKeepTheirOrder :
    (∃ s t, Inv s ∧ isBlockMove (.line (.frame v20)) = true ∧ runMove (.line (.frame v20)) s = .next t ∧
      s.phase = .rx) ∧
    (∃ s t, Inv s ∧ isBlockMove .seq = true ∧ runMove .seq s = .next t ∧ s.phase ≠ .rx ∧ t.phase = .rx) ∧
    (∃ s t, Inv s ∧ isBlockMove (.line (.frame v20)) = true ∧ runMove (.line (.frame v20)) s = .next t ∧
      s.phase ≠ .rx ∧ t.phase ≠ .rx) :=
  ⟨⟨inRx .read (v30.take 8) 9 1#16, _, inv_of_checks _ (by decide +kernel), rfl, rfl, rfl⟩,
    ⟨{ inTx .xchg v20 8 with rxq := [0x01#8] }, _, inv_of_checks _ (by decide +kernel), rfl, rfl,
      by decide +kernel, by decide +kernel⟩,
    ⟨State.reset, _, resetInv, rfl, rfl, by decide +kernel, by decide +kernel⟩⟩

end Sys2Proof.Tests
end

section
/-!
SUPPORT. Proofs of the statements about the whole machine that 00_scope.md gives: what a move can do, said once; then
the parameters, the invariant, and the end of every command under the progress assumptions of R17.
-/

namespace Sys2Proof.Machine

open Sys2Proof

/-! ### What a move can do -/

/-- The accept step of a command word, or of a word that is no command, in a block that accepts. -/
inductive AcceptStep (s : State) : State → Prop where
  /-- The response alone: the commands that read, and every error response. -/
  | answer (c : Byte) (d : Word) (hc : legalCode c) : AcceptStep s (respond c d s)
  /-- `CRC_INIT`, `CRC_BYTE`. -/
  | setCrc (r : Half) : AcceptStep s (respond codeOk 0#32 { s with crc := r })
  /-- `BLD_REQ`. -/
  | load (a : Byte) (b : Half) : AcceptStep s (respond codeOk 0#32 (loadRequest a b s))
  /-- `TX_CLR`. -/
  | clear : AcceptStep s (respond codeOk 0#32 { s with txbuf := [] })
  /-- `TX_PUT` of a byte that fits. -/
  | put (v : Byte) (hv : s.txlen < s.cfg.txcap) :
      AcceptStep s (respond codeOk 0#32 { s with txbuf := memAppend s.txbuf v })
  /-- `TR_FLUSH`. -/
  | flush : AcceptStep s (respond codeOk 0#32 (flush s))
  /-- `TR_WRITE`. -/
  | write : AcceptStep s (beginTx .write s)
  /-- `TR_READ` with a legal count. -/
  | read (a : Byte) (b : Half) (ha : a.toNat ≤ s.cfg.rxcap) :
      AcceptStep s (beginRx a.toNat b { s with cur := .read })
  /-- `XCHG`. -/
  | xchg (a : Byte) (b : Half) : AcceptStep s (beginTx .xchg (flush (loadRequest a b s)))

/-- What one move can make of a state. -/
inductive MoveStep (s : State) : Move → State → Prop where
  /-- The host has no move. -/
  | hostHeld : MoveStep s .host s
  | hostTakes (r : Response) (hr : s.rst = false) (h : s.rsp = some r) : MoveStep s .host (takeResponse r s)
  | hostIssues (w : Word) (ws : List Word) (n : Nat) (t : State) (hc : canAccept s = true)
      (ht : AcceptStep (record (.cmd w) { s with program := ws, draws := n }) t) : MoveStep s .host t
  | seq : MoveStep s .seq (seqStep s)
  | line (item : LineItem) (bytes : List Byte) (n : Nat) :
      MoveStep s (.line item) (carry bytes { s with draws := n })
  | wire : MoveStep s .wire (wireStep s)
  | tick : MoveStep s .tick (tickStep s)
  | reset : MoveStep s .reset (resetStep s)
  | release : MoveStep s .release (releaseStep s)

/-- A parse answers with one of the four codes. -/
theorem respondParse_answers (s : State) : ∃ c d, legalCode c ∧ respondParse s = respond c d s := by
  obtain ⟨-, e⟩ | ⟨_, _, _, _, -, -, -, -, -, e⟩ := respondParse_cases s
  · exact ⟨_, _, .inr (.inl rfl), e⟩
  · exact ⟨_, _, .inl rfl, e⟩

/-- A buffer read answers with one of the four codes. -/
theorem respondByte_answers (buf : List Byte) (a : Byte) (s : State) :
    ∃ c d, legalCode c ∧ respondByte buf a s = respond c d s := by
  obtain ⟨_, -, e⟩ | ⟨-, e⟩ := respondByte_cases buf a s
  · exact ⟨_, _, .inl rfl, e⟩
  · exact ⟨_, _, .inr (.inr (.inr rfl)), e⟩

theorem acceptStep_badOperand (s : State) : AcceptStep s (raiseBadOperand s) :=
  .answer _ _ (.inr (.inr (.inr rfl)))

theorem acceptStep_of_answers {s t : State} (h : ∃ c d, legalCode c ∧ t = respond c d s) : AcceptStep s t := by
  obtain ⟨c, d, hc, rfl⟩ := h
  exact .answer c d hc

theorem acceptStep_txPut (a : Byte) (s : State) :
    AcceptStep s (if s.txlen < s.cfg.txcap then respond codeOk 0#32 { s with txbuf := memAppend s.txbuf a }
      else raiseBadOperand s) := by
  split
  · next hv => exact .put a hv
  · exact acceptStep_badOperand s

theorem acceptStep_trRead (a : Byte) (b : Half) (s : State) :
    AcceptStep s (if countLegal s.cfg a then beginRx a.toNat b { s with cur := .read } else raiseBadOperand s) := by
  split
  · next ha => exact .read a b (by simpa [countLegal] using ha)
  · exact acceptStep_badOperand s

/-- In a block that accepts, `accept` makes the accept step its work is. -/
theorem accept_acceptStep {work : State → State} {s : State} (hc : canAccept s = true)
    (h : AcceptStep s (work s)) : ∃ t, accept work s = .next t ∧ AcceptStep s t :=
  ⟨work s, accept_ready hc work, h⟩

/-- A command in a block that accepts makes its accept step. -/
theorem exec_acceptStep {i : Instr} {s : State} (hi : isCommand i = true) (hc : canAccept s = true) :
    ∃ t, exec i s = .next t ∧ AcceptStep s t := by
  cases i with
  | nop => unfold exec execNop; exact accept_acceptStep hc (.answer _ _ (.inl rfl))
  | rdStat => unfold exec execRdStat; exact accept_acceptStep hc (.answer _ _ (.inl rfl))
  | crcInit => unfold exec execCrcInit; exact accept_acceptStep hc (.setCrc _)
  | crcByte a => unfold exec execCrcByte; exact accept_acceptStep hc (.setCrc _)
  | crcRd => unfold exec execCrcRd; exact accept_acceptStep hc (.answer _ _ (.inl rfl))
  | bldReq a b => unfold exec execBldReq; exact accept_acceptStep hc (.load a b)
  | prsRsp a => unfold exec execPrsRsp; exact accept_acceptStep hc (acceptStep_of_answers (respondParse_answers s))
  | tbRd a => unfold exec execTbRd; exact accept_acceptStep hc (acceptStep_of_answers (respondByte_answers s.txbuf a s))
  | rbRd a => unfold exec execRbRd; exact accept_acceptStep hc (acceptStep_of_answers (respondByte_answers s.rbuf a s))
  | txClr => unfold exec execTxClr; exact accept_acceptStep hc .clear
  | txPut a => unfold exec execTxPut; exact accept_acceptStep hc (acceptStep_txPut a s)
  | trFlush => unfold exec execTrFlush; exact accept_acceptStep hc .flush
  | trWrite => unfold exec execTrWrite; exact accept_acceptStep hc .write
  | trRead a b => unfold exec execTrRead; exact accept_acceptStep hc (acceptStep_trRead a b s)
  | xchg a b => unfold exec execXchg; exact accept_acceptStep hc (.xchg a b)
  | reqFrame a b c => cases hi
  | rspFrame a b c d e => cases hi
  | serialChar v => cases hi

/-- A word taken by a block that accepts is recorded, and answered by the accept step. -/
theorem acceptWord_acceptStep {w : Word} {s : State} (hc : canAccept s = true) :
    ∃ t, acceptWord w s = .next t ∧ AcceptStep (record (.cmd w) s) t := by
  cases h : decode (.word w) with
  | ok i =>
    rw [acceptWord_of_ok h]
    exact exec_acceptStep (isCommand_of_word h) hc
  | error e => exact ⟨_, acceptWord_of_error h s, .answer _ _ (.inr (.inr (.inl rfl)))⟩

/-- Every move of every agent has a next state, and it is one of `MoveStep`. -/
theorem runMove_moveStep (m : Move) (s : State) : ∃ t, runMove m s = .next t ∧ MoveStep s m t := by
  cases m with
  | host =>
    obtain e | ⟨r, hr, h, e⟩ | ⟨w, ws, n, hc, e⟩ := hostMove_cases s
    · exact ⟨s, e, .hostHeld⟩
    · exact ⟨_, e, .hostTakes r hr h⟩
    · obtain ⟨t, et, ht⟩ := acceptWord_acceptStep (w := w) (s := { s with program := ws, draws := n }) hc
      exact ⟨t, e.trans et, .hostIssues w ws n t hc ht⟩
  | line item =>
    obtain ⟨bytes, n, e⟩ := lineMove_cases item s
    exact ⟨_, e, .line item bytes n⟩
  | seq => exact ⟨_, rfl, .seq⟩
  | wire => exact ⟨_, rfl, .wire⟩
  | tick => exact ⟨_, rfl, .tick⟩
  | reset => exact ⟨_, rfl, .reset⟩
  | release => exact ⟨_, rfl, .release⟩

/-- A step is one move, from a state in which the schedule and the count of free values may differ. -/
theorem step_moveStep {s t : State} (h : step s = .next t) :
    ∃ ms n, MoveStep { s with schedule := ms, draws := n } (takeMove s).1 t := by
  obtain ⟨ms, n, e⟩ := step_cases s
  obtain ⟨u, eu, hu⟩ := runMove_moveStep (takeMove s).1 { s with schedule := ms, draws := n }
  obtain rfl : u = t := by simpa [← e, h] using eu.symm
  exact ⟨ms, n, hu⟩

/-- The end of `RX` stops the command and answers with one of the four codes. -/
theorem endRx_answers (s : State) :
    ∃ c d, legalCode c ∧ endRx s = respond c d (endCommand { s with tmo := readTimedOut s }) := by
  by_cases h : s.cur = .read
  · exact ⟨_, _, .inl rfl, endRx_read h⟩
  · rw [endRx_other h]
    exact respondParse_answers _

/-! ### The parameters (R9) -/

theorem acceptStep_cfg {s t : State} (h : AcceptStep s t) : t.cfg = s.cfg := by
  cases h <;> rfl

@[simp] theorem seqStep_cfg (s : State) : (seqStep s).cfg = s.cfg := by
  obtain e | ⟨_, -, -, -, e⟩ | ⟨-, -, -, e⟩ | ⟨-, -, -, e⟩ := seqStep_cases s <;> rw [e]
  · by_cases h : s.cur = .write
    · rw [endTx_write h]; rfl
    · rw [endTx_other h]; rfl
  · obtain ⟨c, d, -, e'⟩ := endRx_answers s
    rw [e']; rfl

@[simp] theorem lineStep_cfg (v : Byte) (s : State) : (lineStep v s).cfg = s.cfg := by
  obtain ⟨-, e⟩ | ⟨-, -, -, e⟩ | ⟨-, -, -, e⟩ | ⟨-, -, -, e⟩ := lineStep_cases v s <;> rw [e]

@[simp] theorem carry_cfg (bytes : List Byte) (s : State) : (carry bytes s).cfg = s.cfg := by
  cases bytes with
  | nil => rfl
  | cons v rest => exact lineStep_cfg v _

@[simp] theorem wireStep_cfg (s : State) : (wireStep s).cfg = s.cfg := by
  rw [wireStep_eq_carry, carry_cfg]

@[simp] theorem tickStep_cfg (s : State) : (tickStep s).cfg = s.cfg := by
  obtain ⟨-, e⟩ | ⟨-, -, -, e⟩ | ⟨-, -, e⟩ := tickStep_cases s <;> rw [e]

theorem moveStep_cfg {m : Move} {s t : State} (h : MoveStep s m t) : t.cfg = s.cfg := by
  cases h with
  | hostHeld => rfl
  | hostTakes r hr h => rfl
  | hostIssues w ws n t hc ht => exact (acceptStep_cfg ht).trans rfl
  | seq => exact seqStep_cfg s
  | line item bytes n => exact carry_cfg bytes _
  | wire => exact wireStep_cfg s
  | tick => exact tickStep_cfg s
  | reset => rfl
  | release => rfl

/-- Settles O56: no move writes `cfg`. -/
theorem parametersNeverChange : Obligations.ParametersNeverChange := by
  intro s t h
  obtain ⟨ms, n, hm⟩ := step_moveStep h
  exact (moveStep_cfg hm).trans rfl

/-! ### The invariant -/

/-- Out of reset, an idle block meets the invariant when its parameters, stores and response are legal. -/
theorem inv_of_idle {s : State} (hc : Config.Valid s.cfg) (hm : Memory.wf s) (hp : s.phase = .idle)
    (hcur : s.cur = .none) (hr : s.rst = false) (hcode : ∀ r, s.rsp = some r → legalCode r.code) : Inv s where
  cfg := hc
  mem := hm
  idle := by simp [hp, hcur]
  tx h := by simp [hp] at h
  rx h := by simp [hp] at h
  code := hcode
  rst h := by simp [hr] at h

/-- Out of reset, a block in `TX` meets the invariant when its parameters, stores and `TX` facts are legal. -/
theorem inv_of_tx {s : State} (hc : Config.Valid s.cfg) (hm : Memory.wf s) (hp : s.phase = .tx)
    (hr : s.rst = false) (htx : txWf s) : Inv s := by
  obtain ⟨hrsp, hi, hcur, hx⟩ := htx
  refine ⟨hc, hm, ?_, fun _ => ⟨hrsp, hi, hcur, hx⟩, ?_, ?_, ?_⟩
  · obtain h | h := hcur <;> simp [hp, h]
  · simp [hp]
  · simp [hrsp]
  · simp [hr]

/-- Out of reset, a block in `RX` meets the invariant when its parameters, stores and `RX` facts are legal. -/
theorem inv_of_rx {s : State} (hc : Config.Valid s.cfg) (hm : Memory.wf s) (hp : s.phase = .rx)
    (hr : s.rst = false) (hrx : rxWf s) : Inv s := by
  obtain ⟨hrsp, hl, hcap, hq, hcur, hx⟩ := hrx
  refine ⟨hc, hm, ?_, ?_, fun _ => ⟨hrsp, hl, hcap, hq, hcur, hx⟩, ?_, ?_⟩
  · obtain h | h := hcur <;> simp [hp, h]
  · simp [hp]
  · simp [hrsp]
  · simp [hr]

/-- The start of a read that fits meets the invariant (42_transport.md R136). -/
theorem inv_beginRx {n : Nat} {k : Half} {s : State} (hc : Config.Valid s.cfg) (hm : Memory.wf s)
    (hr : s.rst = false) (hrsp : s.rsp = none) (hn : n ≤ s.cfg.rxcap) (hcur : s.cur = .read ∨ s.cur = .xchg)
    (hx : s.cur = .xchg → n = s.cfg.xmax) : Inv (beginRx n k s) := by
  refine inv_of_rx hc (Memory.wf_beginRx hm hn) rfl hr ⟨hrsp, ?_, hn, ?_, hcur, hx⟩
  · exact List.length_take_le n s.rxq
  · intro h
    simp only [beginRx_rlen, beginRx_rmax] at h
    simp only [beginRx_rxq, List.drop_eq_nil_iff]
    omega

/-- The invariant does not speak of the host's program, the line, the schedule, the free values or the history. -/
theorem Inv.frame {s : State} (h : Inv s) (ws : List Word) (bs : List Byte) (ms : List Move) (n : Nat)
    (es : List Event) :
    Inv { s with program := ws, wire := bs, schedule := ms, draws := n, events := es } :=
  ⟨h.cfg, h.mem, h.idle, h.tx, h.rx, h.code, h.rst⟩

/-- A command in progress means that the block is out of reset. -/
theorem Inv.rst_of_busy {s : State} (h : Inv s) (hp : s.phase ≠ .idle) : s.rst = false := by
  cases hr : s.rst with
  | false => rfl
  | true =>
    obtain ⟨-, -, -, -, -, -, hidle, -⟩ := h.rst hr
    exact absurd hidle hp

/-- A command in progress means that no response waits. -/
theorem Inv.rsp_of_busy {s : State} (h : Inv s) (hp : s.phase ≠ .idle) : s.rsp = none := by
  cases hq : s.phase with
  | idle => exact absurd hq hp
  | tx => exact (h.tx hq).1
  | rx => exact (h.rx hq).1

/-- A read in progress asks for no more than fits. -/
theorem Inv.rmax_le_rxcap {s : State} (h : Inv s) (hp : s.phase = .rx) : s.rmax ≤ s.cfg.rxcap := by
  obtain ⟨-, -, hcap, -⟩ := h.rx hp
  exact hcap

/-- Out of reset, an idle block meets the invariant with any legal response posted. -/
theorem inv_respond {c : Byte} {d : Word} {s : State} (hc : Config.Valid s.cfg) (hm : Memory.wf s)
    (hp : s.phase = .idle) (hcur : s.cur = .none) (hr : s.rst = false) (hl : legalCode c) :
    Inv (respond c d s) :=
  inv_of_idle hc hm hp hcur hr (by simpa using hl)

theorem inv_acceptStep {s t : State} (h : Inv s) (hc : canAccept s = true) (ht : AcceptStep s t) : Inv t := by
  obtain ⟨hp, hrsp, hr⟩ := (canAccept_iff s).1 hc
  have hcur := h.idle.1 hp
  obtain ⟨-, -, -, hreq, -⟩ := h.cfg
  cases ht with
  | answer c d hl => exact inv_respond h.cfg h.mem hp hcur hr hl
  | setCrc r => exact inv_respond h.cfg h.mem hp hcur hr (.inl rfl)
  | load a b => exact inv_respond h.cfg (Memory.wf_loadRequest h.mem hreq) hp hcur hr (.inl rfl)
  | clear => exact inv_respond h.cfg ⟨Nat.zero_le _, h.mem.2⟩ hp hcur hr (.inl rfl)
  | put v hv => exact inv_respond h.cfg (Memory.wf_append h.mem hv) hp hcur hr (.inl rfl)
  | flush => exact inv_respond h.cfg (Memory.wf_flush h.mem) hp hcur hr (.inl rfl)
  | write => exact inv_of_tx h.cfg h.mem rfl hr ⟨hrsp, Nat.zero_le _, .inl rfl, nofun⟩
  | read a b ha => exact inv_beginRx (s := { s with cur := .read }) h.cfg h.mem hr hrsp ha (.inl rfl) nofun
  | xchg a b =>
    have hm : Memory.wf (flush (loadRequest a b s)) := Memory.wf_flush (Memory.wf_loadRequest h.mem hreq)
    exact inv_of_tx h.cfg hm rfl hr ⟨hrsp, Nat.zero_le _, .inr rfl, fun _ => rfl⟩

theorem inv_endTx {s : State} (h : Inv s) (hp : s.phase = .tx) : Inv (endTx s) := by
  have hr := h.rst_of_busy (by simp [hp])
  obtain ⟨hrsp, -, hcur, -⟩ := h.tx hp
  obtain ⟨-, hxmax, -⟩ := h.cfg
  by_cases hw : s.cur = .write
  · rw [endTx_write hw]
    exact inv_respond h.cfg h.mem rfl rfl hr (.inl rfl)
  · rw [endTx_other hw]
    exact inv_beginRx h.cfg h.mem hr hrsp hxmax (.inr (hcur.resolve_left hw)) fun _ => rfl

theorem inv_endRx {s : State} (h : Inv s) (hp : s.phase = .rx) : Inv (endRx s) := by
  obtain ⟨c, d, hl, e⟩ := endRx_answers s
  rw [e]
  exact inv_respond h.cfg h.mem rfl rfl (h.rst_of_busy (by simp [hp])) hl

theorem inv_seqStep {s : State} (h : Inv s) : Inv (seqStep s) := by
  obtain e | ⟨v, hr, hp, hv, e⟩ | ⟨-, hp, -, e⟩ | ⟨-, hp, -, e⟩ := seqStep_cases s <;> rw [e]
  · exact h
  · obtain ⟨hrsp, -, hcur, hx⟩ := h.tx hp
    obtain ⟨hi, -⟩ := List.getElem?_eq_some_iff.1 hv
    exact inv_of_tx h.cfg h.mem hp hr ⟨hrsp, hi, hcur, hx⟩
  · exact inv_endTx h hp
  · exact inv_endRx h hp

theorem inv_lineStep {v : Byte} {s : State} (h : Inv s) : Inv (lineStep v s) := by
  have hmem : Memory.wf (lineStep v s) := Memory.wf_lineStep h.mem h.rmax_le_rxcap
  obtain ⟨-, e⟩ | ⟨hr, hp, hl, e⟩ | ⟨hr, hfull, -, e⟩ | ⟨hr, hfull, -, e⟩ := lineStep_cases v s <;> rw [e] at hmem ⊢
  · exact h
  · obtain ⟨hrsp, -, hcap, hq, hcur, hx⟩ := h.rx hp
    refine inv_of_rx h.cfg hmem hp hr ⟨hrsp, ?_, hcap, fun _ => hq hl, hcur, hx⟩
    simpa [State.rlen] using hl
  · refine ⟨h.cfg, hmem, h.idle, h.tx, fun hp => ?_, h.code, by simp [hr]⟩
    obtain ⟨hrsp, hle, hcap, -, hcur, hx⟩ := h.rx hp
    exact ⟨hrsp, hle, hcap, fun hl => absurd ⟨hp, hl⟩ hfull, hcur, hx⟩
  · exact ⟨h.cfg, hmem, h.idle, h.tx, h.rx, h.code, by simp [hr]⟩

theorem inv_carry {bytes : List Byte} {s : State} (h : Inv s) : Inv (carry bytes s) := by
  cases bytes with
  | nil => exact h
  | cons v rest => exact inv_lineStep (h.frame s.program (rest ++ s.wire) s.schedule s.draws s.events)

theorem inv_wireStep {s : State} (h : Inv s) : Inv (wireStep s) := by
  rw [wireStep_eq_carry]
  exact inv_carry (h.frame s.program [] s.schedule s.draws s.events)

theorem inv_tickStep {s : State} (h : Inv s) : Inv (tickStep s) := by
  obtain ⟨-, e⟩ | ⟨hr, hp, -, e⟩ | ⟨-, -, e⟩ := tickStep_cases s <;> rw [e]
  · exact h
  · exact inv_of_rx h.cfg h.mem hp hr (h.rx hp)
  · exact h.frame s.program s.wire s.schedule s.draws _

theorem inv_takeResponse {r : Response} {s : State} (h : Inv s) (hr : s.rst = false) (hrsp : s.rsp = some r) :
    Inv (takeResponse r s) := by
  have hp : s.phase = .idle := by
    by_contra hb
    simp [h.rsp_of_busy hb] at hrsp
  exact inv_of_idle h.cfg h.mem hp (h.idle.1 hp) hr nofun

theorem inv_resetStep {s : State} (h : Inv s) : Inv (resetStep s) where
  cfg := h.cfg
  mem := ⟨Nat.zero_le _, Nat.zero_le _, Nat.zero_le _⟩
  idle := ⟨fun _ => rfl, fun _ => rfl⟩
  tx := nofun
  rx := nofun
  code := nofun
  rst _ := ⟨rfl, rfl, rfl, rfl, rfl, rfl, rfl, rfl, rfl, rfl, rfl, rfl⟩

theorem inv_releaseStep {s : State} (h : Inv s) : Inv (releaseStep s) :=
  ⟨h.cfg, h.mem, h.idle, h.tx, h.rx, h.code, nofun⟩

/-- Every move of every agent keeps the invariant. -/
theorem inv_moveStep {m : Move} {s t : State} (h : Inv s) (hm : MoveStep s m t) : Inv t := by
  cases hm with
  | hostHeld => exact h
  | hostTakes r hr hrsp => exact inv_takeResponse h hr hrsp
  | hostIssues w ws n t hc ht => exact inv_acceptStep (h.frame ws s.wire s.schedule n _) hc ht
  | seq => exact inv_seqStep h
  | line item bytes n => exact inv_carry (h.frame s.program s.wire s.schedule n s.events)
  | wire => exact inv_wireStep h
  | tick => exact inv_tickStep h
  | reset => exact inv_resetStep h
  | release => exact inv_releaseStep h

/-- Settles O45: a step is a move, and every move keeps the invariant. -/
theorem everyStepKeepsInvariant : Obligations.EveryStepKeepsInvariant := by
  intro s t h hs
  obtain ⟨ms, n, hm⟩ := step_moveStep hs
  exact inv_moveStep (h.frame s.program s.wire ms n s.events) hm

/-! ### Every command ends under the progress assumptions (R17) -/

/-- How far the block is from `IDLE`: the ticks a read has left, and in `TX` the bytes to send, on top of any
number of ticks the read of an exchange can start with. -/
def workLeft (s : State) : Nat :=
  match s.phase with
  | .idle => 0
  | .tx => 2 ^ 16 + 1 + (s.txlen - s.txi)
  | .rx => s.timer.toNat + 1

/-- The move that brings a busy block nearer to `IDLE`: the tick while a read's timer runs, else the
sequencer's. It depends on the work left alone, so a move that leaves the work as it is leaves it due. -/
def dueMove (work : Nat) : Move := if work = 1 ∨ 2 ^ 16 < work then .seq else .tick

theorem workLeft_idle {s : State} (h : s.phase = .idle) : workLeft s = 0 := by simp only [workLeft, h]

theorem workLeft_tx {s : State} (h : s.phase = .tx) : workLeft s = 2 ^ 16 + 1 + (s.txlen - s.txi) := by
  simp only [workLeft, h]

theorem workLeft_rx {s : State} (h : s.phase = .rx) : workLeft s = s.timer.toNat + 1 := by
  simp only [workLeft, h]

theorem dueMove_tx {s : State} (h : s.phase = .tx) : dueMove (workLeft s) = .seq := by
  rw [workLeft_tx h]
  exact if_pos (.inr (by omega))

theorem dueMove_expired {s : State} (h : s.phase = .rx) (ht : s.timer = 0#16) : dueMove (workLeft s) = .seq := by
  rw [workLeft_rx h, ht]
  exact if_pos (.inl rfl)

theorem dueMove_running {s : State} (h : s.phase = .rx) (ht : s.timer ≠ 0#16) : dueMove (workLeft s) = .tick := by
  have h0 : s.timer.toNat ≠ 0 := fun h0 => ht (BitVec.eq_of_toNat_eq h0)
  have := s.timer.isLt
  rw [workLeft_rx h]
  exact if_neg (by omega)

theorem dueMove_cases (n : Nat) : dueMove n = .seq ∨ dueMove n = .tick := by
  unfold dueMove
  split
  · exact .inl rfl
  · exact .inr rfl

/-- Only the sequencer and the tick can be due. -/
theorem ne_dueMove {m : Move} {work : Nat} (h1 : m ≠ .seq) (h2 : m ≠ .tick) : m ≠ dueMove work := by
  obtain e | e := dueMove_cases work <;> rw [e]
  · exact h1
  · exact h2

@[simp] theorem workLeft_lineStep (v : Byte) (s : State) : workLeft (lineStep v s) = workLeft s := by
  obtain ⟨-, e⟩ | ⟨-, -, -, e⟩ | ⟨-, -, -, e⟩ | ⟨-, -, -, e⟩ := lineStep_cases v s <;> rw [e] <;> rfl

@[simp] theorem workLeft_carry (bytes : List Byte) (s : State) : workLeft (carry bytes s) = workLeft s := by
  cases bytes with
  | nil => rfl
  | cons v rest => exact workLeft_lineStep v _

@[simp] theorem workLeft_wireStep (s : State) : workLeft (wireStep s) = workLeft s := by
  rw [wireStep_eq_carry]
  exact workLeft_carry _ _

theorem workLeft_emit_lt {s : State} {es : List Event} (hp : s.phase = .tx) (hi : s.txi < s.txlen) :
    workLeft { s with txi := s.txi + 1, events := es } < workLeft s := by
  rw [workLeft_tx hp, workLeft_tx (s := { s with txi := s.txi + 1, events := es }) hp]
  simp only [State.txlen] at hi ⊢
  omega

/-- The end of `TX` is the response of a write, or the start of a read of fewer than `2 ^ 16` ticks. -/
theorem workLeft_endTx_lt {s : State} (hp : s.phase = .tx) : workLeft (endTx s) < workLeft s := by
  rw [workLeft_tx hp]
  by_cases h : s.cur = .write
  · rw [endTx_write h, workLeft_idle rfl]
    omega
  · rw [endTx_other h, workLeft_rx rfl]
    have := (beginRx s.cfg.xmax Config.tRespTicks s).timer.isLt
    omega

/-- The end of `RX` is a response. -/
theorem workLeft_endRx_lt {s : State} (hp : s.phase = .rx) : workLeft (endRx s) < workLeft s := by
  obtain ⟨c, d, -, e⟩ := endRx_answers s
  rw [e, workLeft_idle rfl, workLeft_rx hp]
  omega

/-- What the sequencer does, if anything, brings the block nearer to `IDLE`. -/
theorem seqStep_same_or_nearer (s : State) : seqStep s = s ∨ workLeft (seqStep s) < workLeft s := by
  obtain e | ⟨v, -, hp, hv, e⟩ | ⟨-, hp, -, e⟩ | ⟨-, hp, -, e⟩ := seqStep_cases s
  · exact .inl e
  · obtain ⟨hi, -⟩ := List.getElem?_eq_some_iff.1 hv
    rw [e]
    exact .inr (workLeft_emit_lt hp hi)
  · rw [e]
    exact .inr (workLeft_endTx_lt hp)
  · rw [e]
    exact .inr (workLeft_endRx_lt hp)

/-- Where the sequencer is due it does something. -/
theorem seqStep_nearer_of_due {s : State} (h : Inv s) (hp : s.phase ≠ .idle) (hd : dueMove (workLeft s) = .seq) :
    workLeft (seqStep s) < workLeft s := by
  have hr := h.rst_of_busy hp
  cases hq : s.phase with
  | idle => exact absurd hq hp
  | tx =>
    obtain ⟨-, hi, -⟩ := h.tx hq
    obtain hi | hi := hi.lt_or_eq
    · rw [seqStep_emit hr hq (List.getElem?_eq_getElem hi)]
      exact workLeft_emit_lt hq hi
    · rw [seqStep_endTx hr hq hi]
      exact workLeft_endTx_lt hq
  | rx =>
    have ht : s.timer = 0#16 := by
      by_contra ht
      simp [dueMove_running hq ht] at hd
    rw [seqStep_endRx hr hq (.inr ht)]
    exact workLeft_endRx_lt hq

/-- A tick that the timer counts is one tick less to go. -/
theorem workLeft_count_lt {s : State} {es : List Event} (hp : s.phase = .rx) (ht : s.timer ≠ 0#16) :
    workLeft { s with timer := s.timer - 1#16, events := es } < workLeft s := by
  rw [workLeft_rx hp, workLeft_rx (s := { s with timer := s.timer - 1#16, events := es }) hp]
  bv_omega

theorem workLeft_tickStep_le (s : State) : workLeft (tickStep s) ≤ workLeft s := by
  obtain ⟨-, e⟩ | ⟨-, hp, ht, e⟩ | ⟨-, -, e⟩ := tickStep_cases s <;> rw [e]
  · exact (workLeft_count_lt hp ht).le
  · exact le_rfl

/-- Where the tick is due the timer counts it. -/
theorem tickStep_nearer_of_due {s : State} (h : Inv s) (hp : s.phase ≠ .idle)
    (hd : dueMove (workLeft s) = .tick) : workLeft (tickStep s) < workLeft s := by
  have hrx : s.phase = .rx := by
    cases hq : s.phase with
    | idle => exact absurd hq hp
    | tx => simp [dueMove_tx hq] at hd
    | rx => rfl
  have ht : s.timer ≠ 0#16 := by
    intro ht
    simp [dueMove_expired hrx ht] at hd
  obtain ⟨hr, -⟩ | ⟨-, -, -, e⟩ | ⟨-, hn, -⟩ := tickStep_cases s
  · simp [h.rst_of_busy hp] at hr
  · rw [e]
    exact workLeft_count_lt hrx ht
  · exact absurd hn (by simp [hrx, ht])

/-- While a command is in progress no move takes the block farther from `IDLE`, and the due move brings it
nearer. -/
theorem moveStep_nearer {m : Move} {s t : State} (h : Inv s) (hp : s.phase ≠ .idle) (hm : MoveStep s m t) :
    workLeft t ≤ workLeft s ∧ (m = dueMove (workLeft s) → workLeft t < workLeft s) := by
  cases hm with
  | hostHeld => exact ⟨le_rfl, fun e => absurd e (ne_dueMove nofun nofun)⟩
  | hostTakes r hr hrsp => simp [h.rsp_of_busy hp] at hrsp
  | hostIssues w ws n t hc ht => exact absurd ((canAccept_iff s).1 hc).1 hp
  | seq =>
    refine ⟨?_, fun e => seqStep_nearer_of_due h hp e.symm⟩
    obtain e | hlt := seqStep_same_or_nearer s
    · rw [e]
    · exact hlt.le
  | line item bytes n =>
    exact ⟨(workLeft_carry bytes { s with draws := n }).le, fun e => absurd e (ne_dueMove nofun nofun)⟩
  | wire => exact ⟨(workLeft_wireStep s).le, fun e => absurd e (ne_dueMove nofun nofun)⟩
  | tick => exact ⟨workLeft_tickStep_le s, fun e => tickStep_nearer_of_due h hp e.symm⟩
  | reset => exact ⟨Nat.zero_le _, fun e => absurd e (ne_dueMove nofun nofun)⟩
  | release => exact ⟨le_rfl, fun e => absurd e (ne_dueMove nofun nofun)⟩

/-- A run over a first move and those after it, from the state the first move leads to. -/
theorem after_range_succ {moves : Nat → Move} {s t : State} (h : runMove (moves 0) s = .next t) (n : Nat) :
    after ((List.range (n + 1)).map moves) s = after ((List.range n).map fun i => moves (i + 1)) t := by
  rw [List.range_succ_eq_map, List.map_cons, List.map_map, after_cons, h]
  rfl

/-- A fair stream stays fair without its first move. -/
theorem FairMoves.tail {moves : Nat → Move} (h : FairMoves moves) : FairMoves fun i => moves (i + 1) := by
  have later (m : Move) (hm : ∀ n, ∃ k, n ≤ k ∧ moves k = m) (n : Nat) :
      ∃ k, n ≤ k ∧ moves (k + 1) = m := by
    obtain ⟨k, hk, e⟩ := hm (n + 1)
    exact ⟨k - 1, by omega, by rwa [Nat.sub_add_cancel (by omega)]⟩
  exact ⟨later .seq h.1, later .tick h.2⟩

/-- Whichever move is due, a fair stream holds it. -/
theorem FairMoves.exists_due {moves : Nat → Move} (h : FairMoves moves) (work : Nat) :
    ∃ d, moves d = dueMove work := by
  obtain e | e := dueMove_cases work <;> rw [e]
  · obtain ⟨d, -, hd⟩ := h.1 0
    exact ⟨d, hd⟩
  · obtain ⟨d, -, hd⟩ := h.2 0
    exact ⟨d, hd⟩

/-- The block reaches `IDLE` on a fair stream: by induction on the work left, and for the same work on how far
ahead in the stream the due move stands. -/
theorem reaches_idle {moves : Nat → Move} {s : State} {d : Nat} (hf : FairMoves moves) (h : Inv s)
    (hd : moves d = dueMove (workLeft s)) :
    ∃ n t, after ((List.range n).map moves) s = .next t ∧ t.phase = .idle := by
  by_cases hp : s.phase = .idle
  · exact ⟨0, { s with schedule := [] }, rfl, hp⟩
  obtain ⟨t, e, hm⟩ := runMove_moveStep (moves 0) s
  obtain ⟨hle, hlt⟩ := moveStep_nearer h hp hm
  suffices rest : ∃ n u, after ((List.range n).map fun i => moves (i + 1)) t = .next u ∧ u.phase = .idle by
    obtain ⟨n, u, hu, hidle⟩ := rest
    exact ⟨n + 1, u, (after_range_succ e n).trans hu, hidle⟩
  obtain nearer | same := hle.lt_or_eq
  · obtain ⟨d', hd'⟩ := hf.tail.exists_due (workLeft t)
    exact reaches_idle hf.tail (inv_moveStep h hm) hd'
  · cases d with
    | zero => exact absurd same (hlt hd).ne
    | succ d => exact reaches_idle hf.tail (inv_moveStep h hm) (hd.trans (congrArg dueMove same.symm))
termination_by (workLeft s, d)
decreasing_by
  · exact Prod.Lex.left _ _ nearer
  · rw [same]
    exact Prod.Lex.right _ (by omega)

/-- Settles O48: the work left never grows while a command is in progress, and the stream holds the due move. -/
theorem fairMovesEndEveryCommand : Obligations.FairMovesEndEveryCommand := by
  intro moves s hf h
  obtain ⟨d, hd⟩ := hf.exists_due (workLeft s)
  exact reaches_idle hf h hd

end Sys2Proof.Machine
end

section
/-!
SUPPORT. Proofs of the statements of 10_state.md: the flags `tmo` and `ovr` decide nothing but the answer of `RD_STAT`,
and what the reset step and the state after reset hold.
-/

namespace Sys2Proof.Machine

open Sys2Proof

/-! ### The flags decide nothing (R28, R30, R39) -/

/-- The state with these values of `tmo` and `ovr`. -/
def withFlags (x y : Bool) (s : State) : State := { s with tmo := x, ovr := y }

/-- The second state is the first but for its flags. -/
def SameButFlags (s t : State) : Prop := ∃ x y, t = withFlags x y s

/-- Both outcomes are next states, the same but for their flags. -/
def NextSameButFlags (o p : Host.Outcome State Fault Refusal) : Prop :=
  ∃ t t', o = .next t ∧ p = .next t' ∧ SameButFlags t t'

theorem SameButFlags.eq {s t : State} (h : SameButFlags s t) : t = { s with tmo := t.tmo, ovr := t.ovr } := by
  obtain ⟨x, y, rfl⟩ := h
  rfl

theorem SameButFlags.next {s t : State} (h : SameButFlags s t) : NextSameButFlags (.next s) (.next t) :=
  ⟨s, t, rfl, rfl, h⟩

/-- A condition that does not read the flags takes the same branch with other flags. -/
theorem SameButFlags.ite {c : Prop} [Decidable c] {s s' t t' : State} (hs : SameButFlags s s')
    (ht : SameButFlags t t') : SameButFlags (if c then s else t) (if c then s' else t') := by
  split
  · exact hs
  · exact ht

/-- What the statement asks of two outcomes. -/
theorem NextSameButFlags.exists_next {o p : Host.Outcome State Fault Refusal} {t : State}
    (h : NextSameButFlags o p) (ho : o = .next t) :
    ∃ t', p = .next t' ∧ t' = { t with tmo := t'.tmo, ovr := t'.ovr } := by
  obtain ⟨u, t', hu, hp, e⟩ := h
  obtain rfl : u = t := Host.Outcome.next.inj (hu.symm.trans ho)
  exact ⟨t', hp, e.eq⟩

section

variable (x y : Bool) (s : State)

theorem sameButFlags_withFlags : SameButFlags s (withFlags x y s) := ⟨x, y, rfl⟩

/-! What the steps look at is not the flags. -/

@[simp] theorem withFlags_rst : (withFlags x y s).rst = s.rst := rfl
@[simp] theorem withFlags_phase : (withFlags x y s).phase = s.phase := rfl
@[simp] theorem withFlags_txbuf : (withFlags x y s).txbuf = s.txbuf := rfl
@[simp] theorem withFlags_txi : (withFlags x y s).txi = s.txi := rfl
@[simp] theorem withFlags_txlen : (withFlags x y s).txlen = s.txlen := rfl
@[simp] theorem withFlags_draws : (withFlags x y s).draws = s.draws := rfl
@[simp] theorem readDone_withFlags : readDone (withFlags x y s) = readDone s := rfl

theorem respondParse_withFlags : respondParse (withFlags x y s) = withFlags x y (respondParse s) := by
  unfold respondParse
  dsimp only [withFlags]
  split <;> rfl

theorem respondByte_withFlags (buf : List Byte) (a : Byte) :
    respondByte buf a (withFlags x y s) = withFlags x y (respondByte buf a s) := by
  unfold respondByte
  split <;> rfl

/-- The end of `TX` does not read the flags; the read it may start clears `tmo`. -/
theorem endTx_withFlags : SameButFlags (endTx s) (endTx (withFlags x y s)) := by
  by_cases h : s.cur = .write
  · rw [endTx_write h]
    exact ⟨x, y, endTx_write h⟩
  · rw [endTx_other h]
    exact ⟨false, y, endTx_other h⟩

/-- The end of `RX` sets `tmo` before it is read. -/
theorem endRx_withFlags : endRx (withFlags x y s) = withFlags (readTimedOut s) y (endRx s) := by
  by_cases h : s.cur = .read
  · rw [endRx_read h]
    exact endRx_read h
  · rw [endRx_other h, ← respondParse_withFlags]
    exact endRx_other h

theorem seqStep_withFlags : SameButFlags (seqStep s) (seqStep (withFlags x y s)) := by
  have same := sameButFlags_withFlags x y s
  simp only [seqStep, withFlags_rst, withFlags_phase, withFlags_txbuf, withFlags_txi, withFlags_txlen,
    readDone_withFlags]
  refine .ite same ?_
  split
  · exact same
  · split
    · exact ⟨x, y, rfl⟩
    · exact .ite (endTx_withFlags x y s) same
  · exact .ite ⟨_, y, endRx_withFlags x y s⟩ same

/-- A line step sets `ovr` for a byte that is lost, and leaves the flags as they are for any other. -/
theorem lineStep_withFlags (v : Byte) : SameButFlags (lineStep v s) (lineStep v (withFlags x y s)) := by
  obtain ⟨h, e⟩ | ⟨h, hp, hl, e⟩ | ⟨h, hp, hq, e⟩ | ⟨h, hp, hq, e⟩ := lineStep_cases v s <;> rw [e]
  · exact ⟨x, y, lineStep_reset v h⟩
  · exact ⟨x, y, lineStep_read v h hp hl⟩
  · exact ⟨x, y, lineStep_queue v h hp hq⟩
  · exact ⟨x, true, lineStep_drop v h hp hq⟩

theorem carry_withFlags (bytes : List Byte) : SameButFlags (carry bytes s) (carry bytes (withFlags x y s)) := by
  cases bytes with
  | nil => exact sameButFlags_withFlags x y s
  | cons v rest => exact lineStep_withFlags x y { s with wire := rest ++ s.wire } v

theorem wireStep_withFlags : SameButFlags (wireStep s) (wireStep (withFlags x y s)) := by
  rw [wireStep_eq_carry, wireStep_eq_carry]
  exact carry_withFlags x y { s with wire := [] } s.wire

theorem tickStep_withFlags : SameButFlags (tickStep s) (tickStep (withFlags x y s)) :=
  .ite (sameButFlags_withFlags x y s) (.ite ⟨x, y, rfl⟩ ⟨x, y, rfl⟩)

theorem lineNoise_withFlags (item : LineItem) :
    SameButFlags (lineNoise item s) (lineNoise item (withFlags x y s)) := by
  cases item with
  | frame bytes => exact carry_withFlags x y s bytes
  | char bits =>
    simp only [lineNoise, withFlags_draws]
    split
    · next v _ => exact lineStep_withFlags x y { s with draws := s.draws + 1 } v
    · exact ⟨x, y, rfl⟩

/-- The line's item decodes to what the line carries, which goes where the flags have no say. -/
theorem lineMove_withFlags (item : LineItem) :
    NextSameButFlags (lineMove item s) (lineMove item (withFlags x y s)) := by
  unfold lineMove
  split
  · next i hi =>
    obtain ⟨bytes, e⟩ := exec_of_line hi
    rw [e, e]
    exact (carry_withFlags x y s bytes).next
  · exact (lineNoise_withFlags x y s item).next

/-- Whether a command is accepted is not decided by the flags, so its accept step is compared by its work. -/
theorem accept_withFlags {work : State → State} (h : SameButFlags (work s) (work (withFlags x y s))) :
    NextSameButFlags (accept work s) (accept work (withFlags x y s)) :=
  (SameButFlags.ite h (sameButFlags_withFlags x y s)).next

/-- Only `RD_STAT` reads the flags. `TR_FLUSH` and `XCHG` clear `ovr`, `TR_READ` clears `tmo`; no other command
writes them. -/
theorem exec_withFlags {i : Instr} (hi : i ≠ .rdStat) :
    NextSameButFlags (exec i s) (exec i (withFlags x y s)) := by
  cases i with
  | rdStat => exact absurd rfl hi
  | prsRsp a => exact accept_withFlags x y s ⟨x, y, respondParse_withFlags x y s⟩
  | tbRd a => exact accept_withFlags x y s ⟨x, y, respondByte_withFlags x y s s.txbuf a⟩
  | rbRd a => exact accept_withFlags x y s ⟨x, y, respondByte_withFlags x y s s.rbuf a⟩
  | txPut a => unfold exec execTxPut; exact accept_withFlags x y s (.ite ⟨x, y, rfl⟩ ⟨x, y, rfl⟩)
  | trFlush => unfold exec execTrFlush; exact accept_withFlags x y s ⟨x, false, rfl⟩
  | trRead a b => unfold exec execTrRead; exact accept_withFlags x y s (.ite ⟨false, y, rfl⟩ ⟨x, y, rfl⟩)
  | xchg a b => unfold exec execXchg; exact accept_withFlags x y s ⟨x, false, rfl⟩
  | reqFrame a b c => exact (carry_withFlags x y s _).next
  | rspFrame a b c d e => exact (carry_withFlags x y s _).next
  | serialChar v => exact (lineStep_withFlags x y s v).next
  | _ =>
    simp only [exec, execNop, execCrcInit, execCrcByte, execCrcRd, execBldReq, execTxClr, execTrWrite]
    exact accept_withFlags x y s ⟨x, y, rfl⟩

/-- The moves that carry a command to its end do not read the flags. -/
theorem runMove_withFlags {m : Move} (hm : isBlockMove m = true) :
    NextSameButFlags (runMove m s) (runMove m (withFlags x y s)) := by
  cases m with
  | seq => exact (seqStep_withFlags x y s).next
  | line item => exact lineMove_withFlags x y s item
  | wire => exact (wireStep_withFlags x y s).next
  | tick => exact (tickStep_withFlags x y s).next
  | host => cases hm
  | reset => cases hm
  | release => cases hm

end

/-- Settles O53: run from other flags, every instruction but `RD_STAT` and every move that carries a command to
its end answers the same state but for the flags. -/
theorem flagsDecideNothing : Obligations.FlagsDecideNothing :=
  ⟨fun _ s _ x y hi h => (exec_withFlags x y s hi).exists_next h,
    fun _ s _ x y hm h => (runMove_withFlags x y s hm).exists_next h⟩

/-! ### Reset (R42) -/

/-- Settles O27: the reset step takes every element of R20 from `State.reset`, whatever the state before it, and
keeps what is not the block's. -/
theorem resetPutsResetValues : Obligations.ResetPutsResetValues := by
  intro s
  rfl

/-- Settles O46: the state after reset is idle and out of reset, its parameters and empty stores are legal, and no
response waits. -/
theorem resetMeetsInvariant : Obligations.ResetMeetsInvariant :=
  inv_of_idle (by decide) Memory.wf_reset rfl rfl rfl nofun

end Sys2Proof.Machine
end

section
/-!
SUPPORT. Proofs of the statements of 20_memory.md: which commands only read (R58), what an idle block lets change
(R67), what one step records (R60, R62), and the order of the received bytes (R63).
-/

namespace Sys2Proof.Machine

open Sys2Proof

/-- The next state of a move is one of `MoveStep`. -/
theorem moveStep_of_runMove {m : Move} {s t : State} (h : runMove m s = .next t) : MoveStep s m t := by
  obtain ⟨u, eu, hu⟩ := runMove_moveStep m s
  obtain rfl : u = t := Host.Outcome.next.inj (eu.symm.trans h)
  exact hu

/-! ### The reading commands (R58) -/

/-- In a block that accepts, a command that reads posts a response and does nothing else. -/
theorem exec_reading {i : Instr} {s : State} (hc : canAccept s = true)
    (hi : i = .crcRd ∨ i = .rdStat ∨ (∃ a, i = .tbRd a) ∨ (∃ a, i = .rbRd a) ∨ ∃ a, i = .prsRsp a) :
    ∃ c d, exec i s = .next (respond c d s) := by
  obtain rfl | rfl | ⟨a, rfl⟩ | ⟨a, rfl⟩ | ⟨a, rfl⟩ := hi
  · exact ⟨_, _, accept_ready hc _⟩
  · exact ⟨_, _, accept_ready hc _⟩
  · obtain ⟨c, d, -, e⟩ := respondByte_answers s.txbuf a s
    exact ⟨c, d, e ▸ accept_ready hc _⟩
  · obtain ⟨c, d, -, e⟩ := respondByte_answers s.rbuf a s
    exact ⟨c, d, e ▸ accept_ready hc _⟩
  · obtain ⟨c, d, -, e⟩ := respondParse_answers s
    exact ⟨c, d, e ▸ accept_ready hc _⟩

/-- With its response taken, a block that did nothing but respond is where it was. -/
theorem respond_rsp_none {s : State} (h : s.rsp = none) (c : Byte) (d : Word) :
    { respond c d s with rsp := none } = s := by
  rw [← h]
  rfl

/-- Settles O51: with the response taken the state is the one before the command, so the command run again answers
the same. -/
theorem readingCommandsChangeNothing : Obligations.ReadingCommandsChangeNothing := by
  intro i s t hc hi h
  obtain ⟨c, d, e⟩ := exec_reading hc hi
  obtain rfl : t = respond c d s := Host.Outcome.next.inj (h.symm.trans e)
  obtain ⟨-, hrsp, -⟩ := (canAccept_iff s).1 hc
  exact ⟨rfl, nofun, by rw [respond_rsp_none hrsp, e]⟩

/-! ### The idle block (R67) -/

/-- Of the elements of R20 only `rxq`, by bytes put behind it, and `ovr` differ; the response is the same. -/
def OnlyPendingInput (s t : State) : Prop :=
  blockView t = { blockView s with rxq := t.rxq, ovr := t.ovr } ∧ s.rxq <+: t.rxq ∧ t.rsp = s.rsp

theorem onlyPendingInput_refl (s : State) : OnlyPendingInput s s := ⟨rfl, List.prefix_rfl, rfl⟩

theorem onlyPendingInput_lineStep (v : Byte) {s : State} (hp : s.phase = .idle) :
    OnlyPendingInput s (lineStep v s) := by
  obtain ⟨-, e⟩ | ⟨-, hrx, -, -⟩ | ⟨-, -, -, e⟩ | ⟨-, -, -, e⟩ := lineStep_cases v s
  · rw [e]; exact onlyPendingInput_refl s
  · simp [hp] at hrx
  · rw [e]; exact ⟨rfl, List.prefix_append _ _, rfl⟩
  · rw [e]; exact ⟨rfl, List.prefix_rfl, rfl⟩

theorem onlyPendingInput_carry (bytes : List Byte) {s : State} (hp : s.phase = .idle) :
    OnlyPendingInput s (carry bytes s) := by
  cases bytes with
  | nil => exact onlyPendingInput_refl s
  | cons v rest => exact onlyPendingInput_lineStep v (s := { s with wire := rest ++ s.wire }) hp

theorem seqStep_idle {s : State} (hp : s.phase = .idle) : seqStep s = s := by
  obtain e | ⟨_, -, hq, -, -⟩ | ⟨-, hq, -, -⟩ | ⟨-, hq, -, -⟩ := seqStep_cases s
  · exact e
  all_goals simp [hp] at hq

theorem onlyPendingInput_tickStep {s : State} (hp : s.phase = .idle) : OnlyPendingInput s (tickStep s) := by
  obtain ⟨-, e⟩ | ⟨-, hrx, -, -⟩ | ⟨-, -, e⟩ := tickStep_cases s
  · rw [e]; exact onlyPendingInput_refl s
  · simp [hp] at hrx
  · rw [e]; exact ⟨rfl, List.prefix_rfl, rfl⟩

/-- The host's move and a reset apart, every move leaves an idle block as it is but for the pending input. -/
theorem onlyPendingInput_moveStep {m : Move} {s t : State} (hp : s.phase = .idle) (hhost : m ≠ .host)
    (hreset : m ≠ .reset) (h : MoveStep s m t) : OnlyPendingInput s t := by
  cases h with
  | hostHeld => exact absurd rfl hhost
  | hostTakes r hr hrsp => exact absurd rfl hhost
  | hostIssues w ws n t hc ht => exact absurd rfl hhost
  | reset => exact absurd rfl hreset
  | seq => rw [seqStep_idle hp]; exact onlyPendingInput_refl s
  | line item bytes n => exact onlyPendingInput_carry bytes (s := { s with draws := n }) hp
  | wire =>
    rw [wireStep_eq_carry]
    exact onlyPendingInput_carry s.wire (s := { s with wire := [] }) hp
  | tick => exact onlyPendingInput_tickStep hp
  | release => exact ⟨rfl, List.prefix_rfl, rfl⟩

/-- The host has no move while `rst` is asserted. -/
theorem hostMove_reset {s : State} (h : s.rst = true) : hostMove s = .next s := if_pos h

/-- Settles O54: the host takes the response that waits, out of reset; every other move leaves it, and touches the
pending input only. -/
theorem idleBlockChangesOnlyPendingInput : Obligations.IdleBlockChangesOnlyPendingInput := by
  intro m s t hp hreset hrsp h
  by_cases hm : m = .host
  · subst hm
    obtain ⟨r, hr⟩ := Option.ne_none_iff_exists'.1 (hrsp rfl)
    cases hrst : s.rst with
    | true =>
      obtain rfl : s = t := Host.Outcome.next.inj ((hostMove_reset hrst).symm.trans h)
      exact ⟨rfl, List.prefix_rfl, by simp⟩
    | false =>
      obtain rfl : takeResponse r s = t := Host.Outcome.next.inj ((hostMove_take hrst hr).symm.trans h)
      exact ⟨rfl, List.prefix_rfl, rfl⟩
  · obtain ⟨hview, hprefix, hport⟩ := onlyPendingInput_moveStep hp hm hreset (moveStep_of_runMove h)
    exact ⟨hview, hprefix, by simp [hm, hport]⟩

/-! ### One step, one event (R60) -/

/-- The phase, the command in progress and the response are as they were. -/
def SameCommand (s t : State) : Prop := t.phase = s.phase ∧ t.cur = s.cur ∧ t.rsp = s.rsp

/-- The step that ends `TX` or the one that ends `RX` is enabled (R134, R139). -/
def EndEnabled (s : State) : Prop :=
  (s.phase = .tx ∧ s.txi = s.txlen) ∨ (s.phase = .rx ∧ (s.rlen = s.rmax ∨ s.timer = 0#16))

/-- What a move from the first state to the second has done when it records this event. -/
def Recorded (m : Move) (s t : State) : Event → Prop
  | .cmd _ => canAccept s = true
  | .rsp code data => s.rsp = some ⟨code, data⟩ ∧ t.rsp = none ∧ t.phase = s.phase ∧ t.cur = s.cur
  | .tx v => m = .seq ∧ s.phase = .tx ∧ s.txbuf[s.txi]? = some v ∧ t.txi = s.txi + 1 ∧ t.txbuf = s.txbuf ∧
      SameCommand s t
  | .rx _ _ | .tick => SameCommand s t
  | .reset => t.phase = .idle ∧ t.cur = .none ∧ t.rsp = none

/-- A move records no event and ends no phase but by an end step, or records one event and does what it says. -/
def AtMostOneEvent (m : Move) (s t : State) : Prop :=
  (t.events = s.events ∧ (SameCommand s t ∨ EndEnabled s)) ∨
    ∃ e, t.events = e :: s.events ∧ Recorded m s t e

theorem sameCommand_refl (s : State) : SameCommand s s := ⟨rfl, rfl, rfl⟩

theorem atMostOneEvent_refl (m : Move) (s : State) : AtMostOneEvent m s s := .inl ⟨rfl, .inl (sameCommand_refl s)⟩

theorem acceptStep_events {s t : State} (h : AcceptStep s t) : t.events = s.events := by
  cases h <;> rfl

theorem endTx_events (s : State) : (endTx s).events = s.events := by
  by_cases h : s.cur = .write
  · rw [endTx_write h]; rfl
  · rw [endTx_other h]; rfl

theorem endRx_events (s : State) : (endRx s).events = s.events := by
  obtain ⟨c, d, -, e⟩ := endRx_answers s
  rw [e]; rfl

theorem atMostOneEvent_seqStep (s : State) : AtMostOneEvent .seq s (seqStep s) := by
  obtain e | ⟨v, -, hp, hv, e⟩ | ⟨-, hp, hi, e⟩ | ⟨-, hp, hd, e⟩ := seqStep_cases s <;> rw [e]
  · exact atMostOneEvent_refl .seq s
  · exact .inr ⟨.tx v, rfl, rfl, hp, hv, rfl, rfl, sameCommand_refl s⟩
  · exact .inl ⟨endTx_events s, .inr (.inl ⟨hp, hi⟩)⟩
  · exact .inl ⟨endRx_events s, .inr (.inr ⟨hp, hd⟩)⟩

theorem atMostOneEvent_lineStep (m : Move) (v : Byte) (s : State) : AtMostOneEvent m s (lineStep v s) := by
  obtain ⟨-, e⟩ | ⟨-, -, -, e⟩ | ⟨-, -, -, e⟩ | ⟨-, -, -, e⟩ := lineStep_cases v s <;> rw [e]
  · exact atMostOneEvent_refl m s
  · exact .inr ⟨.rx v true, rfl, sameCommand_refl s⟩
  · exact .inr ⟨.rx v true, rfl, sameCommand_refl s⟩
  · exact .inr ⟨.rx v false, rfl, sameCommand_refl s⟩

theorem atMostOneEvent_carry (m : Move) (bytes : List Byte) (s : State) : AtMostOneEvent m s (carry bytes s) := by
  cases bytes with
  | nil => exact atMostOneEvent_refl m s
  | cons v rest => exact atMostOneEvent_lineStep m v { s with wire := rest ++ s.wire }

theorem atMostOneEvent_tickStep (s : State) : AtMostOneEvent .tick s (tickStep s) := by
  obtain ⟨-, e⟩ | ⟨-, -, -, e⟩ | ⟨-, -, e⟩ := tickStep_cases s <;> rw [e]
  · exact atMostOneEvent_refl .tick s
  · exact .inr ⟨.tick, rfl, sameCommand_refl s⟩
  · exact .inr ⟨.tick, rfl, sameCommand_refl s⟩

theorem atMostOneEvent_moveStep {m : Move} {s t : State} (h : MoveStep s m t) : AtMostOneEvent m s t := by
  cases h with
  | hostHeld => exact atMostOneEvent_refl .host s
  | hostTakes r hr hrsp => exact .inr ⟨.rsp r.code r.data, rfl, hrsp, rfl, rfl, rfl⟩
  | hostIssues w ws n t hc ht => exact .inr ⟨.cmd w, acceptStep_events ht, hc⟩
  | seq => exact atMostOneEvent_seqStep s
  | line item bytes n => exact atMostOneEvent_carry _ bytes { s with draws := n }
  | wire =>
    rw [wireStep_eq_carry]
    exact atMostOneEvent_carry _ s.wire { s with wire := [] }
  | tick => exact atMostOneEvent_tickStep s
  | reset => exact .inr ⟨.reset, rfl, rfl, rfl, rfl⟩
  | release => exact .inl ⟨rfl, .inl (sameCommand_refl s)⟩

/-- A step is a move, and the schedule and the count of free values have no part in what it records. -/
theorem step_atMostOneEvent {s t : State} (h : step s = .next t) : AtMostOneEvent (takeMove s).1 s t := by
  obtain ⟨ms, n, hm⟩ := step_moveStep h
  have hone := atMostOneEvent_moveStep hm
  exact hone

/-- Settles O55: a step is a move, and a move records at most one event. -/
theorem stepRecordsAtMostOneEvent : Obligations.StepRecordsAtMostOneEvent := by
  intro s t h
  obtain ⟨hev, hend⟩ | ⟨e, hev, he⟩ := step_atMostOneEvent h
  · exact .inl ⟨hev, hend⟩
  · refine .inr ⟨e, hev, ?_⟩
    cases e with
    | tx v =>
      obtain ⟨-, -, -, -, -, hsame⟩ := he
      exact hsame
    | _ => exact he

/-! ### The bytes emitted (R62) -/

/-- The byte an event says was emitted. -/
def sentByte : Event → Option Byte
  | .tx v => some v
  | .cmd _ | .rsp _ _ | .rx _ _ | .tick | .reset => none

theorem emitted_of_events_eq {s t : State} (h : t.events = s.events) : emitted t = emitted s := by
  simp only [emitted, h]

/-- The newest event's byte is emitted last. -/
theorem emitted_of_events_cons {e : Event} {s t : State} (h : t.events = e :: s.events) :
    emitted t = emitted s ++ (sentByte e).toList := by
  simp only [emitted, h, List.reverse_cons, List.filterMap_append]
  cases e <;> rfl

theorem emitted_of_no_byte {e : Event} {s t : State} (h : t.events = e :: s.events) (he : sentByte e = none) :
    emitted t = emitted s := by
  rw [emitted_of_events_cons h, he, Option.toList_none, List.append_nil]

/-- Settles O49: a step records at most one event, and only the sequencer's records a byte. -/
theorem bytesLeaveOnlyInTransmission : Obligations.BytesLeaveOnlyInTransmission := by
  intro s t h
  obtain ⟨hev, -⟩ | ⟨e, hev, he⟩ := step_atMostOneEvent h
  · exact .inl (emitted_of_events_eq hev)
  · cases e with
    | tx v =>
      obtain ⟨hm, hp, hv, htxi, htxbuf, -⟩ := he
      exact .inr ⟨v, hm, hp, hv, emitted_of_events_cons hev, htxi, htxbuf⟩
    | _ => exact .inl (emitted_of_no_byte hev rfl)

/-! ### The order of the received bytes (R63) -/

/-- The byte an event says was received and kept. -/
def keptByte : Event → Option Byte
  | .rx v true => some v
  | .rx _ false | .cmd _ | .rsp _ _ | .tx _ | .tick | .reset => none

theorem received_of_events_eq {s t : State} (h : t.events = s.events) : received t = received s := by
  simp only [received, h]

/-- The newest event's byte is received last. -/
theorem received_of_events_cons {e : Event} {s t : State} (h : t.events = e :: s.events) :
    received t = received s ++ (keptByte e).toList := by
  simp only [received, h, List.reverse_cons, List.filterMap_append]
  cases e with
  | rx v kept => cases kept <;> rfl
  | _ => rfl

theorem received_of_no_byte {e : Event} {s t : State} (h : t.events = e :: s.events) (he : keptByte e = none) :
    received t = received s := by
  rw [received_of_events_cons h, he, Option.toList_none, List.append_nil]

/-- What is received and kept goes behind the bytes already there; a read that starts takes the pending ones first. -/
def KeepsOrder (s t : State) : Prop :=
  ∃ new, received t = received s ++ new ∧
    (s.phase = .rx → t.rbuf ++ t.rxq = s.rbuf ++ s.rxq ++ new) ∧
    (s.phase ≠ .rx → t.phase = .rx → t.rbuf ++ t.rxq = s.rxq ++ new) ∧
    (s.phase ≠ .rx → t.phase ≠ .rx → t.rbuf = s.rbuf ∧ t.rxq = s.rxq ++ new)

/-- Where no byte comes, no read starts and both stores stay, nothing is out of order. -/
theorem keepsOrder_of_same {s t : State} (hrec : received t = received s) (hp : t.phase = .rx → s.phase = .rx)
    (hb : t.rbuf = s.rbuf) (hq : t.rxq = s.rxq) : KeepsOrder s t :=
  ⟨[], by simp [hrec], by simp [hb, hq], fun hs ht => absurd (hp ht) hs, by simp [hb, hq]⟩

theorem keepsOrder_refl (s : State) : KeepsOrder s s := keepsOrder_of_same rfl id rfl rfl

/-- A byte that a read takes comes next: while the read wants bytes, none is pending (`Inv`). -/
theorem keepsOrder_lineStep (v : Byte) {s : State} (h : Inv s) : KeepsOrder s (lineStep v s) := by
  obtain ⟨-, e⟩ | ⟨-, hp, hl, e⟩ | ⟨-, -, -, e⟩ | ⟨-, -, -, e⟩ := lineStep_cases v s <;> rw [e]
  · exact keepsOrder_refl s
  · obtain ⟨-, -, -, hwait, -⟩ := h.rx hp
    have hempty : s.rxq = [] := hwait hl
    exact ⟨[v], received_of_events_cons (e := .rx v true) rfl, by simp [hempty], by simp [hp], by simp [hp]⟩
  · exact ⟨[v], received_of_events_cons (e := .rx v true) rfl, by simp, fun hs ht => absurd ht hs, by simp⟩
  · exact keepsOrder_of_same (received_of_no_byte rfl rfl) id rfl rfl

theorem keepsOrder_carry (bytes : List Byte) {s : State} (h : Inv s) : KeepsOrder s (carry bytes s) := by
  cases bytes with
  | nil => exact keepsOrder_refl s
  | cons v rest => exact keepsOrder_lineStep v (h.frame s.program (rest ++ s.wire) s.schedule s.draws s.events)

theorem keepsOrder_tickStep (s : State) : KeepsOrder s (tickStep s) := by
  obtain ⟨-, e⟩ | ⟨-, -, -, e⟩ | ⟨-, -, e⟩ := tickStep_cases s <;> rw [e]
  · exact keepsOrder_refl s
  · exact keepsOrder_of_same (received_of_no_byte rfl rfl) id rfl rfl
  · exact keepsOrder_of_same (received_of_no_byte rfl rfl) id rfl rfl

/-- The read of an exchange starts with the oldest pending bytes and leaves the rest pending. -/
theorem keepsOrder_endTx {s : State} (hp : s.phase = .tx) : KeepsOrder s (endTx s) := by
  have hrec : received (endTx s) = received s := received_of_events_eq (endTx_events s)
  by_cases h : s.cur = .write
  · rw [endTx_write h] at hrec ⊢
    exact keepsOrder_of_same hrec nofun rfl rfl
  · rw [endTx_other h] at hrec ⊢
    exact ⟨[], by simp [hrec], by simp [hp], by simp, by simp⟩

theorem keepsOrder_endRx (s : State) : KeepsOrder s (endRx s) := by
  have hrec : received (endRx s) = received s := received_of_events_eq (endRx_events s)
  obtain ⟨c, d, -, e⟩ := endRx_answers s
  rw [e] at hrec ⊢
  exact keepsOrder_of_same hrec nofun rfl rfl

theorem keepsOrder_seqStep (s : State) : KeepsOrder s (seqStep s) := by
  obtain e | ⟨_, -, -, -, e⟩ | ⟨-, hp, -, e⟩ | ⟨-, -, -, e⟩ := seqStep_cases s <;> rw [e]
  · exact keepsOrder_refl s
  · exact keepsOrder_of_same (received_of_no_byte rfl rfl) id rfl rfl
  · exact keepsOrder_endTx hp
  · exact keepsOrder_endRx s

/-- The moves of the line, the tick and the sequencer keep the order. -/
theorem keepsOrder_moveStep {m : Move} {s t : State} (h : Inv s) (hb : isBlockMove m = true)
    (hm : MoveStep s m t) : KeepsOrder s t := by
  cases hm with
  | hostHeld => cases hb
  | hostTakes r hr hrsp => cases hb
  | hostIssues w ws n t hc ht => cases hb
  | reset => cases hb
  | release => cases hb
  | seq => exact keepsOrder_seqStep s
  | line item bytes n => exact keepsOrder_carry bytes (h.frame s.program s.wire s.schedule n s.events)
  | wire =>
    rw [wireStep_eq_carry]
    exact keepsOrder_carry s.wire (h.frame s.program [] s.schedule s.draws s.events)
  | tick => exact keepsOrder_tickStep s

/-- Settles O57: no move of the block or its surroundings puts a byte in front of one that came before it. -/
theorem receivedBytesKeepTheirOrder : Obligations.ReceivedBytesKeepTheirOrder := by
  intro m s t h hb hs
  exact keepsOrder_moveStep h hb (moveStep_of_runMove hs)

end Sys2Proof.Machine
end

section
/-!
SUPPORT. Proofs of the statements of 30_encoding.md: decoder and encoder undo each other (R71, R75 to R80), what the
command port takes and when (R70, R74, R76), and what a frame on the line is to the receiver (R78, R79).
-/

namespace Sys2Proof.Machine

open Sys2Proof

/-! ### The decoder reads back what the encoder writes (R71, R75, R78 to R80) -/

/-- Everything but a request frame with another CRC field than R78 prescribes is well-formed, and the decoder does not
look at that field (log entry 11), so no premise is needed. -/
theorem decode_encode (i : Instr) : decode (encode i) = .ok i := by
  cases i with
  | reqFrame slaveId startAddress crc =>
    simp [encode, requestFrame, requestHead, decode, decodeFrame]
  | rspFrame slaveId function byteCount regHigh regLow =>
    simp [encode, responseFrame, decode, decodeFrame]
  | serialChar v => exact decode_charBits v
  | _ => simp only [encode, decode, decodeCommand, commandWord_op, commandWord_a, commandWord_b]

/-- Settles O32: the fields of a command word, the bytes of a frame and the bits of a character are read back as
they were written. -/
theorem decodeOfEncodeIsIdentity : Obligations.DecodeOfEncodeIsIdentity :=
  fun i _ => decode_encode i

/-! ### The encoder writes back what the decoder reads -/

/-- A byte list that decodes is a request frame or the head of a response, and is the encoding of what it decodes to. -/
theorem encode_of_decode_frame {bytes : List Byte} {i : Instr} (h : decode (.line (.frame bytes)) = .ok i) :
    encode i = .line (.frame bytes) := by
  simp only [decode] at h
  unfold decodeFrame at h
  split at h
  · next s f ah al ch cl pl ph =>
    split at h
    · next hfixed =>
      obtain ⟨rfl, hcount⟩ := hfixed
      cases h
      simp [encode, requestFrame, requestHead, ← hcount]
    · cases h
  · cases h
    simp [encode, responseFrame]
  · cases h

/-- Ten bits with start bit 0 and stop bit 1 are the character of the byte between them. -/
theorem charBits_of_bits (bits : BitVec 10) (hstart : bits.getLsbD 9 = false) (hstop : bits.getLsbD 0 = true) :
    charBits (reverseBits (bits.extractLsb' 1 8)) = bits := by
  rw [charBits, reverseBits_reverseBits]
  apply BitVec.eq_of_getLsbD_eq
  intro k hk
  rw [BitVec.getLsbD_append, BitVec.getLsbD_append, BitVec.getLsbD_extractLsb']
  obtain rfl | hk0 := Nat.eq_zero_or_pos k
  · exact hstop.symm
  obtain rfl | hk9 := Nat.eq_or_lt_of_le (Nat.le_of_lt_succ hk)
  · exact hstart.symm
  · have h1 : ¬ k < 1 := by omega
    have h2 : k - 1 < 8 := by omega
    have h3 : 1 + (k - 1) = k := by omega
    simp [h1, h2, h3]

theorem encode_of_decode_char {bits : BitVec 10} {i : Instr} (h : decode (.line (.char bits)) = .ok i) :
    encode i = .line (.char bits) := by
  simp only [decode, decodeChar] at h
  split at h
  · next hbits =>
    cases h
    simp only [encode, charBits_of_bits bits hbits.1 hbits.2]
  · cases h

theorem encode_of_decode_line {item : LineItem} {i : Instr} (h : decode (.line item) = .ok i) :
    encode i = .line item := by
  cases item with
  | char bits => exact encode_of_decode_char h
  | frame bytes => exact encode_of_decode_frame h

/-- A word that decodes is the encoding of what it decodes to, but for the operand fields that are not used and are
encoded as 0 (R77). -/
theorem encode_of_decode_word {w : Word} {i : Instr} (h : decode (.word w) = .ok i) :
    ∃ x y, encode i = .word (commandWord (w.extractLsb' 24 8) x y) ∧
      (x = w.extractLsb' 16 8 ∨ x = 0#8) ∧ (y = w.extractLsb' 0 16 ∨ y = 0#16) := by
  simp only [decode, decodeCommand] at h
  generalize w.extractLsb' 24 8 = op at h ⊢
  split at h <;> cases h <;> exact ⟨_, _, rfl, by simp, by simp⟩

/-- Settles O33: the encoding of what a word decodes to has the word's used fields, so it decodes to the same. -/
theorem encodeOfDecodeRestoresBits : Obligations.EncodeOfDecodeRestoresBits := by
  refine ⟨fun _ _ h => encode_of_decode_line h, fun w i h => ⟨isCommand_of_word h, ?_⟩⟩
  obtain ⟨x, y, henc, hx, hy⟩ := encode_of_decode_word h
  exact ⟨x, y, henc, hx, hy, henc ▸ decode_encode i⟩

/-- Settles O31: each pattern is cut into its fields, bytes or bits and read. -/
theorem writtenOutWordsDecode : Obligations.WrittenOutWordsDecode :=
  ⟨rfl, rfl, rfl, rfl, rfl, rfl, rfl, rfl⟩

/-! ### A frame on the line (R78, R79, R141) -/

/-- Whether or not the bytes are a frame of the table, the line carries them. -/
theorem runMove_frame (bytes : List Byte) (s : State) :
    runMove (.line (.frame bytes)) s = .next (carry bytes s) := by
  simp only [runMove, lineMove]
  cases h : decode (.line (.frame bytes)) with
  | error e => rfl
  | ok i =>
    have henc := encode_of_decode_frame h
    cases i with
    | reqFrame slaveId startAddress crc => cases henc; rfl
    | rspFrame slaveId function byteCount regHigh regLow => cases henc; rfl
    | _ => cases henc

/-- The arrival of a byte leaves what stands on the line. -/
theorem wire_lineStep (v : Byte) (s : State) : (lineStep v s).wire = s.wire := by
  obtain ⟨-, e⟩ | ⟨-, -, -, e⟩ | ⟨-, -, -, e⟩ | ⟨-, -, -, e⟩ := lineStep_cases v s <;> rw [e]

/-- Bytes carried as one frame, with the arrival of each after the first, are delivered in order; what stood on the
line before still stands there. -/
theorem after_frameMoves (v : Byte) (bytes : List Byte) {s : State} (h : s.rst = false) :
    after (frameMoves (v :: bytes)) s = .next { delivered (v :: bytes) s with schedule := [] } := by
  have hrst : (lineStep v { s with wire := bytes ++ s.wire }).rst = false := (lineStep_rst v _).trans h
  have hwire : (lineStep v { s with wire := bytes ++ s.wire }).wire = bytes ++ s.wire := wire_lineStep v _
  refine (after_cons _ _ s).trans ?_
  rw [runMove_frame, carry_cons]
  refine (after_wire bytes s.wire hrst hwire).trans ?_
  rw [lineStep_wire, delivered_cons h, ← wire_lineStep v s]
  rfl

/-- The first byte of a frame is delivered, the others stand on the line. -/
theorem carry_cons_eq_delivered (v : Byte) (rest : List Byte) {s : State} (h : s.rst = false) :
    carry (v :: rest) s = delivered [v] { s with wire := rest ++ s.wire } :=
  (delivered_one (s := { s with wire := rest ++ s.wire }) h v).symm

/-- Settles O17: the eight bytes are carried as any bytes are. -/
theorem reqFrameDeliversEightBytes : Obligations.ReqFrameDeliversEightBytes :=
  fun _ slaveId _ _ h =>
    ⟨congrArg Host.Outcome.next (carry_cons_eq_delivered slaveId _ h), after_frameMoves slaveId _ h⟩

/-- Settles O18: the seven bytes are carried as any bytes are. -/
theorem rspFrameDeliversSevenBytes : Obligations.RspFrameDeliversSevenBytes :=
  fun _ slaveId _ _ _ _ h =>
    ⟨congrArg Host.Outcome.next (carry_cons_eq_delivered slaveId _ h), after_frameMoves slaveId _ h⟩

/-! ### The command port (R70, R74, R76) -/

/-- The opcodes of the fifteen commands (R75). -/
def commandOpcodes : List Byte :=
  [0x00#8, 0x01#8, 0x10#8, 0x11#8, 0x12#8, 0x20#8, 0x21#8, 0x22#8, 0x23#8, 0x24#8,
    0x25#8, 0x30#8, 0x31#8, 0x32#8, 0x40#8]

/-- A word whose opcode is none of the fifteen of R75 is no instruction. -/
theorem decode_word_unknown {w : Word} (h : w.extractLsb' 24 8 ∉ commandOpcodes) :
    decode (.word w) = .error (.illegalOp (w.extractLsb' 24 8)) := by
  simp only [decode, decodeCommand]
  generalize w.extractLsb' 24 8 = op at h ⊢
  split
  case h_16 => rfl
  all_goals exact absurd h (by decide)

/-- Settles O26: the word is taken from the program and recorded, and the decoder's error is answered. -/
theorem unknownOpcodeIsIllegalCommand : Obligations.UnknownOpcodeIsIllegalCommand := by
  intro s w ws hc hprog hop
  calc hostMove s
    _ = acceptWord w { s with program := ws } := hostMove_issue hc hprog
    _ = .next (raiseIllegalCmd (record (.cmd w) { s with program := ws })) :=
      acceptWord_of_error (decode_word_unknown hop) _

/-- Settles O50: a step records at most one event, and `Cmd` only when the block accepts. -/
theorem commandsAcceptedOnlyWhenReady : Obligations.CommandsAcceptedOnlyWhenReady := by
  intro s t w es h hes hmem
  obtain ⟨hev, -⟩ | ⟨e, hev, he⟩ := step_atMostOneEvent h
  · obtain rfl : es = [] := List.self_eq_append_left.1 (hev.symm.trans hes)
    cases hmem
  · obtain rfl : es = [e] := List.append_cancel_right (hes.symm.trans hev)
    obtain rfl : .cmd w = e := List.mem_singleton.1 hmem
    exact he

/-- Settles O24: out of reset the host takes a response that waits. -/
theorem hostTakesResponse : Obligations.HostTakesResponse :=
  fun _ _ hrst hrsp => hostMove_take hrst hrsp

/-- Settles O25: every command passes through `accept`, which holds the host. -/
theorem busyBlockHoldsHost : Obligations.BusyBlockHoldsHost := by
  refine fun s hc => ⟨fun i hi => ?_, hostMove_held hc⟩
  obtain ⟨work, hwork⟩ := exec_command hi
  exact (hwork s).trans (accept_held hc work)

/-- Settles O30: the step takes the move; the host's move takes the word, the line's move its item. -/
theorem stepRunsDecodedInstruction : Obligations.StepRunsDecodedInstruction := by
  constructor
  · intro s w ws ms i hc hsched hprog hdec
    calc step s
      _ = hostMove { s with schedule := ms } := step_of_schedule hsched
      _ = acceptWord w { s with schedule := ms, program := ws } :=
        hostMove_issue (s := { s with schedule := ms }) hc hprog
      _ = _ := acceptWord_of_ok hdec _
  · intro s item ms i hsched hdec
    refine (step_of_schedule hsched).trans ?_
    simp only [runMove, lineMove, hdec]

end Sys2Proof.Machine
end

section
/-!
SUPPORT. Proofs of the statements of 40_crc.md: what the three commands of the CRC engine do (R102 to R104) and
compute together (R105), what else touches `crc` (R105), and the residue of a message with its CRC (R107, R108).
-/

namespace Sys2Proof

/-! ### The residue (R107) -/

/-- The byte step is eight bit steps (R101). -/
theorem crcByte_eq_iterate (r : Half) (v : Byte) : crcByte r v = crcBit^[8] (r ^^^ v.setWidth 16) := rfl

/-- A bit step that shifts out a 0 is a shift. -/
theorem crcBit_of_even {r : Half} (h : r.getLsbD 0 = false) : crcBit r = r >>> 1 := if_neg (Bool.eq_false_iff.1 h)

/-- Bit steps that shift out nothing but zeros are a shift. -/
theorem crcBit_iterate_of_low_zero {r : Half} (n : Nat) (h : ∀ i < n, r.getLsbD i = false) :
    crcBit^[n] r = r >>> n := by
  induction n with
  | zero => simp
  | succ n ih =>
    have hbit : (r >>> n).getLsbD 0 = false := by simpa using h n (Nat.lt_succ_self n)
    rw [Function.iterate_succ_apply', ih fun i hi => h i (Nat.lt_succ_of_lt hi), crcBit_of_even hbit,
      BitVec.shiftRight_add]

/-- The low byte of the register, fed to it, cancels the low byte and shifts the high one down. -/
theorem crcByte_lo8 (c : Half) : crcByte c (lo8 c) = (hi8 c).setWidth 16 := by
  have hlow : ∀ i < 8, (c ^^^ (lo8 c).setWidth 16).getLsbD i = false := by
    intro i hi
    have : i < 16 := by omega
    simp [lo8, hi, this]
  rw [crcByte_eq_iterate, crcBit_iterate_of_low_zero 8 hlow]
  apply BitVec.eq_of_getLsbD_eq
  intro i hi
  suffices c.getLsbD (8 + i) = true → i < 8 by simpa [lo8, hi8, hi]
  intro hbit
  have := BitVec.lt_of_getLsbD hbit
  omega

/-- A register that holds a byte is cancelled by it. -/
theorem crcByte_self (v : Byte) : crcByte (v.setWidth 16) v = 0#16 := by
  rw [crcByte_eq_iterate, BitVec.xor_self, crcBit_iterate_of_low_zero 8 (by simp), BitVec.zero_ushiftRight]

/-- Settles O36: the low byte of the CRC leaves its high byte in the register, and that cancels it. -/
theorem crcResidueIsZero : Obligations.CrcResidueIsZero := by
  intro m
  rw [crc16, List.foldl_append, ← crc16]
  simp only [List.foldl_cons, List.foldl_nil, crcByte_lo8, crcByte_self]

end Sys2Proof

namespace Sys2Proof.Machine

open Sys2Proof

/-! ### The three commands (R102 to R104) -/

theorem decode_crcInit (x : Byte) (y : Half) : decode (.word (commandWord 0x10#8 x y)) = .ok .crcInit := by
  simp only [decode, decodeCommand, commandWord_op]

theorem decode_crcByte (a : Byte) (y : Half) : decode (.word (commandWord 0x11#8 a y)) = .ok (.crcByte a) := by
  simp only [decode, decodeCommand, commandWord_op, commandWord_a]

theorem decode_crcRd (x : Byte) (y : Half) : decode (.word (commandWord 0x12#8 x y)) = .ok .crcRd := by
  simp only [decode, decodeCommand, commandWord_op]

section

variable {s : State} (hc : canAccept s = true)
include hc

theorem exec_crcInit : exec .crcInit s = .next (respond codeOk 0#32 { s with crc := Config.crcInitValue }) := by
  unfold exec execCrcInit
  exact accept_ready hc _

theorem exec_crcByte (a : Byte) :
    exec (.crcByte a) s = .next (respond codeOk 0#32 { s with crc := crcByte s.crc a }) := by
  unfold exec execCrcByte
  exact accept_ready hc _

theorem exec_crcRd : exec .crcRd s = .next (respond codeOk (s.crc.setWidth 32) s) := by
  unfold exec execCrcRd
  exact accept_ready hc _

end

/-- Settles O3: `CRC_INIT` is decoded whatever its operand fields are, and loads `CRC_INIT_VALUE`. -/
theorem crcInitLoadsStartValue : Obligations.CrcInitLoadsStartValue :=
  ⟨decode_crcInit, fun _ hc => exec_crcInit hc⟩

/-- Settles O4: the byte step is the bit step, written out in the statement, iterated eight times. -/
theorem crcByteAdvancesRegister : Obligations.CrcByteAdvancesRegister :=
  ⟨decode_crcByte, fun _ a hc => exec_crcByte hc a⟩

/-- Settles O5: `CRC_RD` is decoded whatever its operand fields are, and does nothing but respond. -/
theorem crcRdReturnsRegister : Obligations.CrcRdReturnsRegister :=
  ⟨decode_crcRd, fun _ hc => exec_crcRd hc⟩

/-! ### The commands one after the other (R105) -/

/-- A run makes its first move and goes on from the state that move leads to. -/
theorem after_cons_of_next {m : Move} {s t : State} (h : runMove m s = .next t) (ms : List Move) :
    after (m :: ms) s = after ms t := by
  rw [after_cons, h]

/-- The host issues a word that is a command: its meaning, with the word recorded and taken from the program. -/
theorem runMove_issue {s : State} {w : Word} {ws : List Word} {i : Instr} (hc : canAccept s = true)
    (hprog : s.program = w :: ws) (hdec : decode (.word w) = .ok i) :
    runMove .host s = exec i (record (.cmd w) { s with program := ws }) :=
  (hostMove_issue hc hprog).trans (acceptWord_of_ok hdec _)

/-- The host takes the response just posted. -/
theorem runMove_take {s : State} (hrst : s.rst = false) (c : Byte) (d : Word) :
    runMove .host (respond c d s) = .next (takeResponse ⟨c, d⟩ (respond c d s)) :=
  hostMove_take hrst rfl

/-- The host issues a command that only writes `crc` and takes its response: the block is ready again, with the new
`crc` and the rest of the program. -/
theorem after_setCrc {s : State} {w : Word} {ws : List Word} {i : Instr} {f : Half → Half}
    (hc : canAccept s = true) (hprog : s.program = w :: ws) (hdec : decode (.word w) = .ok i)
    (hexec : ∀ u, canAccept u = true → exec i u = .next (respond codeOk 0#32 { u with crc := f u.crc })) :
    ∃ u, (∀ ms, after (.host :: .host :: ms) s = after ms u) ∧
      canAccept u = true ∧ u.crc = f s.crc ∧ u.program = ws := by
  obtain ⟨hidle, -, hrst⟩ := (canAccept_iff s).1 hc
  have hissue := (runMove_issue hc hprog hdec).trans (hexec _ hc)
  have htake := runMove_take (s := record (.cmd w) { s with program := ws, crc := f s.crc }) hrst codeOk 0#32
  exact ⟨_, fun ms => (after_cons_of_next hissue _).trans (after_cons_of_next htake ms),
    (canAccept_iff _).2 ⟨hidle, rfl, hrst⟩, rfl, rfl⟩

/-- One `CRC_BYTE` per byte, then `CRC_RD`. -/
def crcProgram (bytes : List Byte) : List Word :=
  bytes.map (fun v => commandWord 0x11#8 v 0) ++ [commandWord 0x12#8 0 0]

/-- From any value of `crc` the program folds the byte step over its bytes: two moves per byte, and the issue of
`CRC_RD`. -/
theorem after_crcProgram (bytes : List Byte) {s : State} (hc : canAccept s = true)
    (hprog : s.program = crcProgram bytes) :
    ∃ t, after (List.replicate (2 * bytes.length + 1) .host) s = .next t ∧
      t.crc = bytes.foldl crcByte s.crc ∧ t.rsp = some ⟨codeOk, (bytes.foldl crcByte s.crc).setWidth 32⟩ := by
  induction bytes generalizing s with
  | nil =>
    have hissue := (runMove_issue hc hprog (decode_crcRd 0 0)).trans (exec_crcRd hc)
    exact ⟨_, (after_cons_of_next hissue []).trans (after_nil _), rfl, rfl⟩
  | cons v bytes ih =>
    obtain ⟨u, hrun, hcu, hcrc, hprogu⟩ :=
      after_setCrc (f := (crcByte · v)) hc hprog (decode_crcByte v 0) fun _ hcu => exec_crcByte hcu v
    obtain ⟨t, ht, hres⟩ := ih hcu hprogu
    rw [hcrc] at hres
    exact ⟨t, (hrun _).trans ht, hres⟩

/-- Settles O34: after `CRC_INIT` the register holds the value from which `crc16` folds the byte step. -/
theorem crcCommandsComputeCrc16 : Obligations.CrcCommandsComputeCrc16 := by
  intro s bytes hc
  obtain ⟨u, hrun, hcu, hcrc, hprog⟩ :=
    after_setCrc (s := withProgram (commandWord 0x10#8 0 0 :: crcProgram bytes) s)
      (f := fun _ => Config.crcInitValue) hc rfl (decode_crcInit 0 0) fun _ hcu => exec_crcInit hcu
  obtain ⟨t, ht, hres⟩ := after_crcProgram bytes hcu hprog
  rw [hcrc] at hres
  exact ⟨t, (hrun _).trans ht, hres⟩

/-! ### What touches `crc` (R105) -/

theorem accept_crc {work : State → State} {s t : State} (hw : (work s).crc = s.crc)
    (h : accept work s = .next t) : t.crc = s.crc := by
  obtain rfl : (if canAccept s then work s else s) = t := Host.Outcome.next.inj h
  split
  · exact hw
  · rfl

@[simp] theorem respondParse_crc (s : State) : (respondParse s).crc = s.crc := by
  obtain ⟨c, d, -, e⟩ := respondParse_answers s
  rw [e, respond_crc]

@[simp] theorem respondByte_crc (buf : List Byte) (a : Byte) (s : State) : (respondByte buf a s).crc = s.crc := by
  obtain ⟨c, d, -, e⟩ := respondByte_answers buf a s
  rw [e, respond_crc]

@[simp] theorem seqStep_crc (s : State) : (seqStep s).crc = s.crc := by
  obtain e | ⟨_, -, -, -, e⟩ | ⟨-, -, -, e⟩ | ⟨-, -, -, e⟩ := seqStep_cases s <;> rw [e]
  · by_cases h : s.cur = .write
    · rw [endTx_write h]; rfl
    · rw [endTx_other h]; rfl
  · obtain ⟨c, d, -, e'⟩ := endRx_answers s
    rw [e']; rfl

@[simp] theorem lineStep_crc (v : Byte) (s : State) : (lineStep v s).crc = s.crc := by
  obtain ⟨-, e⟩ | ⟨-, -, -, e⟩ | ⟨-, -, -, e⟩ | ⟨-, -, -, e⟩ := lineStep_cases v s <;> rw [e]

@[simp] theorem carry_crc (bytes : List Byte) (s : State) : (carry bytes s).crc = s.crc := by
  cases bytes with
  | nil => rfl
  | cons v rest => exact lineStep_crc v _

@[simp] theorem wireStep_crc (s : State) : (wireStep s).crc = s.crc := by
  rw [wireStep_eq_carry, carry_crc]

@[simp] theorem tickStep_crc (s : State) : (tickStep s).crc = s.crc := by
  obtain ⟨-, e⟩ | ⟨-, -, -, e⟩ | ⟨-, -, e⟩ := tickStep_cases s <;> rw [e]

/-- The four commands that touch `crc`. -/
def TouchesCrc (i : Instr) : Prop :=
  i = .crcInit ∨ (∃ a, i = .crcByte a) ∨ (∃ a b, i = .bldReq a b) ∨ ∃ a b, i = .xchg a b

theorem exec_crc {i : Instr} {s t : State} (h : exec i s = .next t) : TouchesCrc i ∨ t.crc = s.crc := by
  cases i with
  | crcInit => exact .inl (.inl rfl)
  | crcByte a => exact .inl (.inr (.inl ⟨a, rfl⟩))
  | bldReq a b => exact .inl (.inr (.inr (.inl ⟨a, b, rfl⟩)))
  | xchg a b => exact .inl (.inr (.inr (.inr ⟨a, b, rfl⟩)))
  | prsRsp a => exact .inr (accept_crc (respondParse_crc s) h)
  | tbRd a => exact .inr (accept_crc (respondByte_crc s.txbuf a s) h)
  | rbRd a => exact .inr (accept_crc (respondByte_crc s.rbuf a s) h)
  | txPut a => unfold exec execTxPut at h; exact .inr (accept_crc (by split <;> rfl) h)
  | trRead a b => unfold exec execTrRead at h; exact .inr (accept_crc (by split <;> rfl) h)
  | reqFrame a b c => cases h; exact .inr (carry_crc _ s)
  | rspFrame a b c d e => cases h; exact .inr (carry_crc _ s)
  | serialChar v => cases h; exact .inr (lineStep_crc v s)
  | _ =>
    simp only [exec, execNop, execRdStat, execCrcRd, execTxClr, execTrFlush, execTrWrite] at h
    exact .inr (accept_crc rfl h)

theorem moveStep_crc {m : Move} {s t : State} (hb : isBlockMove m = true) (h : MoveStep s m t) :
    t.crc = s.crc := by
  cases h with
  | seq => exact seqStep_crc s
  | line item bytes n => exact carry_crc bytes _
  | wire => exact wireStep_crc s
  | tick => exact tickStep_crc s
  | _ => cases hb

/-- Settles O35: every other instruction, and every move of the sequencer, the line and the tick, leaves `crc`. -/
theorem onlyFourCommandsTouchCrc : Obligations.OnlyFourCommandsTouchCrc :=
  ⟨fun _ _ _ h hne => (exec_crc h).resolve_right hne, fun _ _ _ hb h => moveStep_crc hb (moveStep_of_runMove h)⟩

/-! ### The request built (R108) -/

/-- The accept steps of `BLD_REQ` and of `XCHG` leave the request in the transmit buffer. -/
theorem exec_build_txbuf {s t : State} {a : Byte} {b : Half} (hc : canAccept s = true)
    (h : exec (.bldReq a b) s = .next t ∨ exec (.xchg a b) s = .next t) : t.txbuf = buildReq a b := by
  obtain h | h := h
  · rw [exec, execBldReq, accept_ready hc] at h
    cases h
    rfl
  · rw [exec, execXchg, accept_ready hc] at h
    cases h
    rfl

/-- Settles O37: the request is its first six bytes followed by their CRC, low byte first. -/
theorem builtRequestCarriesItsCrc : Obligations.BuiltRequestCarriesItsCrc := by
  intro s t a b hc h
  rw [txlen_eq_length, exec_build_txbuf hc h]
  exact ⟨buildReq_length a b, rfl, crcResidueIsZero (requestHead a b)⟩

end Sys2Proof.Machine
end

section
/-!
SUPPORT. Proofs of the statements of 41_codec.md: what the six commands of the frame codec and of the buffer access do
(R110 to R122).
-/

namespace Sys2Proof.Machine

open Sys2Proof

/-! ### The command words -/

theorem decode_bldReq (a : Byte) (b : Half) : decode (.word (commandWord 0x20#8 a b)) = .ok (.bldReq a b) := by
  simp only [decode, decodeCommand, commandWord_op, commandWord_a, commandWord_b]

theorem decode_prsRsp (a : Byte) (y : Half) : decode (.word (commandWord 0x21#8 a y)) = .ok (.prsRsp a) := by
  simp only [decode, decodeCommand, commandWord_op, commandWord_a]

theorem decode_tbRd (a : Byte) (y : Half) : decode (.word (commandWord 0x22#8 a y)) = .ok (.tbRd a) := by
  simp only [decode, decodeCommand, commandWord_op, commandWord_a]

theorem decode_rbRd (a : Byte) (y : Half) : decode (.word (commandWord 0x23#8 a y)) = .ok (.rbRd a) := by
  simp only [decode, decodeCommand, commandWord_op, commandWord_a]

theorem decode_txClr (x : Byte) (y : Half) : decode (.word (commandWord 0x24#8 x y)) = .ok .txClr := by
  simp only [decode, decodeCommand, commandWord_op]

theorem decode_txPut (a : Byte) (y : Half) : decode (.word (commandWord 0x25#8 a y)) = .ok (.txPut a) := by
  simp only [decode, decodeCommand, commandWord_op, commandWord_a]

/-! ### The shared operations, case by case -/

/-- The bytes the CRC of a request is taken over (R110). -/
theorem requestHead_eq (a : Byte) (b : Half) :
    requestHead a b = [a, 0x03#8, hi8 b, lo8 b, 0x00#8, 0x02#8] := rfl

/-- A request is its first six bytes and their CRC, low byte first (R110). -/
theorem buildReq_eq (a : Byte) (b : Half) :
    buildReq a b = [a, 0x03#8, hi8 b, lo8 b, 0x00#8, 0x02#8, lo8 (requestCrc a b), hi8 (requestCrc a b)] := rfl

/-- A parse of fewer than seven bytes (R115). -/
theorem respondParse_of_short {s : State} (h : s.rlen < 7) :
    respondParse s = respond codeShortResponse (BitVec.ofNat 32 s.rlen) s := by
  obtain ⟨-, e⟩ | ⟨_, _, _, _, hlen, -⟩ := respondParse_cases s
  · exact e
  · omega

/-- A parse of seven bytes or more: bytes 3 to 6, most significant first (R113, R114). -/
theorem respondParse_of_long {s : State} (h : 7 ≤ s.rlen) :
    ∃ b3 b4 b5 b6 : Byte, s.rbuf[3]? = some b3 ∧ s.rbuf[4]? = some b4 ∧ s.rbuf[5]? = some b5 ∧
      s.rbuf[6]? = some b6 ∧ respondParse s = respond codeOk (b3 ++ b4 ++ b5 ++ b6) s := by
  obtain ⟨hlen, -⟩ | ⟨b3, b4, b5, b6, -, h3, h4, h5, h6, e⟩ := respondParse_cases s
  · omega
  · exact ⟨b3, b4, b5, b6, h3, h4, h5, h6, by rw [e, be16_append_be16]⟩

/-- A buffer read at an index below the length (R119, R120). -/
theorem respondByte_of_some {buf : List Byte} {a v : Byte} (h : buf[a.toNat]? = some v) (s : State) :
    respondByte buf a s = respond codeOk (v.setWidth 32) s := by
  simp only [respondByte, memRead, h]

/-- A buffer read at an index that is not below the length (R119, R120). -/
theorem respondByte_of_length_le {buf : List Byte} {a : Byte} (h : buf.length ≤ a.toNat) (s : State) :
    respondByte buf a s = respond codeBadOperand 0#32 s := by
  simp only [respondByte, memRead, List.getElem?_eq_none h, raiseBadOperand]

/-! ### The six commands -/

section

variable {s : State} (hc : canAccept s = true)
include hc

theorem exec_bldReq (a : Byte) (b : Half) :
    exec (.bldReq a b) s = .next (respond codeOk 0#32 (loadRequest a b s)) := by
  unfold exec execBldReq
  exact accept_ready hc _

theorem exec_prsRsp (a : Byte) : exec (.prsRsp a) s = .next (respondParse s) := by
  unfold exec execPrsRsp
  exact accept_ready hc _

theorem exec_tbRd (a : Byte) : exec (.tbRd a) s = .next (respondByte s.txbuf a s) := by
  unfold exec execTbRd
  exact accept_ready hc _

theorem exec_rbRd (a : Byte) : exec (.rbRd a) s = .next (respondByte s.rbuf a s) := by
  unfold exec execRbRd
  exact accept_ready hc _

theorem exec_txClr : exec .txClr s = .next (respond codeOk 0#32 { s with txbuf := [] }) := by
  unfold exec execTxClr
  exact accept_ready hc _

/-- `TX_PUT` with room for the byte. -/
theorem exec_txPut_of_lt (a : Byte) (h : s.txlen < s.cfg.txcap) :
    exec (.txPut a) s = .next (respond codeOk 0#32 { s with txbuf := s.txbuf ++ [a] }) := by
  unfold exec execTxPut
  exact (accept_ready hc _).trans (congrArg _ (if_pos h))

/-- `TX_PUT` into a full buffer. -/
theorem exec_txPut_of_full (a : Byte) (h : s.txlen = s.cfg.txcap) :
    exec (.txPut a) s = .next (respond codeBadOperand 0#32 s) := by
  unfold exec execTxPut
  exact (accept_ready hc _).trans (congrArg _ (if_neg h.not_lt))

end

/-! ### The statements -/

/-- Settles O7: the two cases of a parse by the length of the response buffer; the operand does not occur in them. -/
theorem prsRspParsesBuffer : Obligations.PrsRspParsesBuffer := by
  refine ⟨decode_prsRsp, fun s a hc hlen => ?_, fun s a hc hlen => ?_⟩
  · obtain ⟨b3, b4, b5, b6, h3, h4, h5, h6, e⟩ := respondParse_of_long hlen
    exact ⟨b3, b4, b5, b6, h3, h4, h5, h6, (exec_prsRsp hc a).trans (congrArg _ e)⟩
  · exact (exec_prsRsp hc a).trans (congrArg _ (respondParse_of_short hlen))

/-- Settles O6: `BLD_REQ` loads the request and its CRC, both written out by `buildReq_eq` and `requestHead_eq`. -/
theorem bldReqBuildsFrame : Obligations.BldReqBuildsFrame := by
  refine ⟨decode_bldReq, fun s a b hc => ?_⟩
  rw [exec_bldReq hc, loadRequest, buildReq_eq, requestCrc, requestHead_eq]
  rfl

/-- Settles O8: a read of the transmit buffer below and not below its length. -/
theorem tbRdReadsTransmitBuffer : Obligations.TbRdReadsTransmitBuffer :=
  ⟨decode_tbRd,
    fun s a _ hc hv => (exec_tbRd hc a).trans (congrArg _ (respondByte_of_some hv s)),
    fun s a hc hle => (exec_tbRd hc a).trans (congrArg _ (respondByte_of_length_le hle s))⟩

/-- Settles O9: a read of the response buffer below and not below its length. -/
theorem rbRdReadsResponseBuffer : Obligations.RbRdReadsResponseBuffer :=
  ⟨decode_rbRd,
    fun s a _ hc hv => (exec_rbRd hc a).trans (congrArg _ (respondByte_of_some hv s)),
    fun s a hc hle => (exec_rbRd hc a).trans (congrArg _ (respondByte_of_length_le hle s))⟩

/-- Settles O10: `TX_CLR` is decoded whatever its operand fields are, and leaves no valid byte. -/
theorem txClrEmptiesTransmitBuffer : Obligations.TxClrEmptiesTransmitBuffer :=
  ⟨decode_txClr, fun _ hc => exec_txClr hc⟩

/-- Settles O11: by the invariant a buffer whose length is not its capacity has room. -/
theorem txPutAppendsByte : Obligations.TxPutAppendsByte := by
  refine ⟨decode_txPut, fun s a hinv hc hne => ?_, fun s a hc hfull => exec_txPut_of_full hc a hfull⟩
  obtain ⟨htx, -, -⟩ := hinv.mem
  exact exec_txPut_of_lt hc a (Nat.lt_of_le_of_ne htx hne)

end Sys2Proof.Machine
end

section
/-!
SUPPORT. Proofs of the statements of 42_transport.md: what the three commands of the serial transport do (R131, R132,
R135), how the sequencer ends `TX` and `RX` (R133, R134, R139), and what the line and the tick do to a read (R136 to
R138, R141 to R143).
-/

namespace Sys2Proof.Machine

open Sys2Proof

/-! ### The commands -/

theorem decode_trFlush (x : Byte) (y : Half) : decode (.word (commandWord 0x30#8 x y)) = .ok .trFlush := by
  simp only [decode, decodeCommand, commandWord_op]

theorem decode_trWrite (x : Byte) (y : Half) : decode (.word (commandWord 0x31#8 x y)) = .ok .trWrite := by
  simp only [decode, decodeCommand, commandWord_op]

theorem decode_trRead (a : Byte) (b : Half) : decode (.word (commandWord 0x32#8 a b)) = .ok (.trRead a b) := by
  simp only [decode, decodeCommand, commandWord_op, commandWord_a, commandWord_b]

section

variable {s : State} (hc : canAccept s = true)
include hc

theorem exec_trFlush : exec .trFlush s = .next (respond codeOk 0#32 (flush s)) := by
  unfold exec execTrFlush
  exact accept_ready hc _

theorem exec_trWrite : exec .trWrite s = .next (beginTx .write s) := by
  unfold exec execTrWrite
  exact accept_ready hc _

/-- `TR_READ` of a count that fits the response buffer. -/
theorem exec_trRead_of_le {a : Byte} (b : Half) (h : a.toNat ≤ s.cfg.rxcap) :
    exec (.trRead a b) s = .next (beginRx a.toNat b { s with cur := .read }) := by
  unfold exec execTrRead
  exact (accept_ready hc _).trans (congrArg _ (if_pos (decide_eq_true h)))

/-- `TR_READ` of a count above the capacity of the response buffer. -/
theorem exec_trRead_of_gt {a : Byte} (b : Half) (h : s.cfg.rxcap < a.toNat) :
    exec (.trRead a b) s = .next (respond codeBadOperand 0#32 s) := by
  have hillegal : ¬ countLegal s.cfg a = true := by simpa [countLegal] using h
  unfold exec execTrRead
  exact (accept_ready hc _).trans (congrArg _ (if_neg hillegal))

end

/-- Settles O12: `TR_FLUSH` is decoded whatever its operand fields are, and its work is the flush. -/
theorem trFlushDiscardsPendingInput : Obligations.TrFlushDiscardsPendingInput :=
  ⟨decode_trFlush, fun _ hc => exec_trFlush hc⟩

/-! ### The transmission (R133, R134) -/

/-- Settles O20: the sequencer reads `txbuf`, `txi` and the phase, none of which the line writes. -/
theorem sequencerEmitsNextByte : Obligations.SequencerEmitsNextByte :=
  fun _ _ hrst hp hv => congrArg Host.Outcome.next (seqStep_emit hrst hp hv)

/-- Settles O21: the end of `TX` goes by the command in progress; the wait of an exchange is 100 ticks. -/
theorem sequencerEndsTransmission : Obligations.SequencerEndsTransmission := by
  intro s hrst hp hi
  have hseq : runMove .seq s = .next (endTx s) := congrArg Host.Outcome.next (seqStep_endTx hrst hp hi)
  refine ⟨fun hcur => hseq.trans (congrArg _ (endTx_write hcur)), fun hcur => ?_⟩
  have hother : s.cur ≠ .write := by simp [hcur]
  exact hseq.trans (congrArg _ (endTx_other hother))

/-- As many sequencer moves as bytes are left emit them in index order. -/
theorem after_emit (n : Nat) {s : State} (hrst : s.rst = false) (hp : s.phase = .tx) (hn : s.txi + n = s.txlen) :
    after (List.replicate n .seq) s = .next { s with
      txi := s.txlen, events := ((s.txbuf.drop s.txi).map Event.tx).reverse ++ s.events, schedule := [] } := by
  induction n generalizing s with
  | zero =>
    have hi : s.txi = s.txlen := hn
    have hdone : s.txbuf.drop s.txi = [] := List.drop_eq_nil_of_le hi.ge
    rw [hdone, ← hi]
    rfl
  | succ n ih =>
    have hlt : s.txi < s.txbuf.length := by rw [txlen_eq_length] at hn; omega
    have hemit := sequencerEmitsNextByte s _ hrst hp (List.getElem?_eq_getElem hlt)
    have hn' : s.txi + 1 + n = s.txlen := by omega
    rw [List.replicate_succ, after_cons_of_next hemit, List.drop_eq_getElem_cons hlt]
    refine (ih (s := { s with txi := s.txi + 1, events := .tx s.txbuf[s.txi] :: s.events }) hrst hp hn').trans ?_
    simp only [List.map_cons, List.reverse_cons, List.append_assoc, List.singleton_append]
    rfl

/-- Settles O13: the bytes are emitted from index 0 on, and one more move ends the write. -/
theorem trWriteEmitsTransmitBuffer : Obligations.TrWriteEmitsTransmitBuffer := by
  refine ⟨decode_trWrite, fun s hc => exec_trWrite hc, fun s hrst hp hcur hi => ?_⟩
  have hn : s.txi + s.txlen = s.txlen := by rw [hi, Nat.zero_add]
  rw [List.replicate_succ', after_append, after_emit s.txlen hrst hp hn, hi, List.drop_zero]
  obtain ⟨hend, -⟩ := sequencerEndsTransmission
    { s with txi := s.txlen, events := (s.txbuf.map Event.tx).reverse ++ s.events, schedule := [] } hrst hp rfl
  exact after_cons_of_next (hend hcur) []

/-! ### The end of a read (R135, R139) -/

/-- The data of a finished read as a number. -/
theorem readData_toNat {s : State} (h : s.rlen < 256) : (readData s).toNat = 2 ^ 8 * s.tmo.toNat + s.rlen := by
  have hflag : ((BitVec.ofBool s.tmo).setWidth 32 <<< 8 : Word).toNat = s.tmo.toNat <<< 8 := by
    cases s.tmo <;> rfl
  have hlen : (BitVec.ofNat 32 s.rlen).toNat = s.rlen := by
    rw [BitVec.toNat_ofNat]
    omega
  rw [readData, BitVec.toNat_or, hflag, hlen, Nat.or_comm, ← Nat.shiftLeft_add_eq_or_of_lt (i := 8) h,
    Nat.shiftLeft_eq, Nat.mul_comm]

/-- The fields of the data of a finished read. -/
theorem readData_fields {s : State} (h : s.rlen < 256) :
    ((readData s).extractLsb' 0 8).toNat = s.rlen ∧ (readData s).getLsbD 8 = s.tmo ∧
      (readData s).extractLsb' 9 23 = 0#23 := by
  have hdata := readData_toNat h
  have hflag := s.tmo.toNat_le
  refine ⟨?_, ?_, BitVec.eq_of_toNat_eq ?_⟩
  · rw [BitVec.extractLsb'_toNat, hdata, Nat.shiftRight_zero]
    omega
  · have hbit : (2 ^ 8 * s.tmo.toNat + s.rlen) / 2 ^ 8 % 2 = s.tmo.toNat := by omega
    rw [BitVec.getLsbD, hdata, Nat.testBit_eq_decide_div_mod_eq, hbit]
    cases s.tmo <;> rfl
  · rw [BitVec.extractLsb'_toNat, hdata, Nat.shiftRight_eq_div_pow, BitVec.toNat_ofNat]
    omega

/-- Settles O14: the start by the count, the wait and the end of a read; by the invariant the length of a response
buffer is exact in 8 bits. -/
theorem trReadStartsAndEndsRead : Obligations.TrReadStartsAndEndsRead := by
  refine ⟨decode_trRead, fun s a b hc hgt => exec_trRead_of_gt hc b hgt,
    fun s a b hc hle => exec_trRead_of_le hc b hle,
    fun s _ hp _ hlen htimer => congrArg Host.Outcome.next (seqStep_wait hp hlen htimer),
    fun s hinv hp hcur hdone => ?_⟩
  obtain ⟨-, -, hcap, -⟩ := hinv.cfg
  obtain ⟨-, hrbuf, -⟩ := hinv.mem
  have hlen : s.rlen < 256 := by rw [rlen_eq_length]; omega
  have hrst : s.rst = false := hinv.rst_of_busy (by simp [hp])
  have hseq : runMove .seq s = .next (endRx s) := congrArg Host.Outcome.next (seqStep_endRx hrst hp hdone)
  rw [endRx_read hcur] at hseq
  exact ⟨_, after_cons_of_next hseq [], readData_fields (s := { s with tmo := readTimedOut s }) hlen⟩

/-! ### What the line does to a read (R136, R137, R141, R143) -/

/-- Settles O16: executing the character is the line step. -/
theorem serialCharIsOneLineStep : Obligations.SerialCharIsOneLineStep :=
  fun _ v hrst =>
    ⟨fun ⟨hp, hl⟩ => congrArg Host.Outcome.next (lineStep_read v hrst hp hl),
      fun hp hq => congrArg Host.Outcome.next (lineStep_queue v hrst hp hq),
      fun hp hq => congrArg Host.Outcome.next (lineStep_drop v hrst hp (Nat.le_of_not_lt hq))⟩

/-- Ten bits with a wrong start or stop bit are no character. -/
theorem decode_char_malformed {bits : BitVec 10} (h : bits.getLsbD 9 = true ∨ bits.getLsbD 0 = false) :
    decode (.line (.char bits)) = .error .badCharacter := by
  refine if_neg ?_
  rintro ⟨hstart, hstop⟩
  rw [hstart, hstop] at h
  exact h.elim nofun nofun

/-- Settles O19: the receiver's free value is no byte or some byte. -/
theorem malformedCharIsNoneOrAnyByte : Obligations.MalformedCharIsNoneOrAnyByte := by
  intro s bits h
  simp only [runMove, lineMove, decode_char_malformed h, lineNoise]
  cases Config.malformed s.draws with
  | none => exact .inl rfl
  | some v => exact .inr ⟨v, rfl⟩

/-- Settles O38: the read starts with what is pending and wants the rest of its `a` bytes from the line; by the
invariant what it leaves pending fits in `RXDEPTH`. -/
theorem readReturnsLongestPrefix : Obligations.ReadReturnsLongestPrefix := by
  intro s t a b bytes hinv hc hle h
  obtain ⟨-, -, hrst⟩ := (canAccept_iff s).1 hc
  obtain ⟨-, -, hdepth⟩ := hinv.mem
  obtain rfl : beginRx a.toNat b { s with cur := .read } = t :=
    Host.Outcome.next.inj ((exec_trRead_of_le hc b hle).symm.trans h)
  have hwanted : wanted (beginRx a.toNat b { s with cur := .read }) = a.toNat - s.rxq.length := by
    simp only [wanted, beginRx_phase, beginRx_rmax, beginRx_rlen, if_true]
    omega
  have hfits : (s.rxq.drop a.toNat).take s.cfg.rxdepth = s.rxq.drop a.toNat := by
    apply List.take_of_length_le
    rw [List.length_drop]
    omega
  refine ⟨_, after_charMoves bytes hrst, ?_, ?_⟩
  · rw [List.take_append, ← hwanted]
    rfl
  · rw [List.drop_append, List.take_append, hfits, ← hwanted]
    rfl

/-! ### The tick and the timer of a read (R138, R142) -/

/-- Settles O23: a tick is counted in `RX` while the timer is not 0. -/
theorem tickCountsReadTimer : Obligations.TickCountsReadTimer := by
  intro s hrst
  obtain ⟨h, -⟩ | ⟨-, hp, ht, e⟩ | ⟨-, hstill, e⟩ := tickStep_cases s
  · simp [hrst] at h
  · exact ⟨fun _ _ => congrArg Host.Outcome.next e, fun hn => absurd hn (by simp [hp, ht])⟩
  · exact ⟨fun hp ht => absurd hstill (by simp [hp, ht]), fun _ => congrArg Host.Outcome.next e⟩

/-- From `s` to `t` the timer has counted `n` ticks, down to 0 at most, and neither `rst` nor the phase has changed. -/
def TicksCounted (n : Nat) (s t : State) : Prop :=
  t.rst = s.rst ∧ t.phase = s.phase ∧ t.timer.toNat = s.timer.toNat - n

/-- A byte that arrives is no tick. -/
theorem ticksCounted_lineStep (v : Byte) (s : State) : TicksCounted 0 s (lineStep v s) := by
  obtain ⟨-, e⟩ | ⟨-, -, -, e⟩ | ⟨-, -, -, e⟩ | ⟨-, -, -, e⟩ := lineStep_cases v s <;> rw [e] <;>
    exact ⟨rfl, rfl, rfl⟩

theorem ticksCounted_carry (bytes : List Byte) (s : State) : TicksCounted 0 s (carry bytes s) := by
  cases bytes with
  | nil => exact ⟨rfl, rfl, rfl⟩
  | cons v rest => exact ticksCounted_lineStep v { s with wire := rest ++ s.wire }

/-- In `RX` a tick is counted, down to 0. -/
theorem ticksCounted_tickStep {s : State} (hrst : s.rst = false) (hp : s.phase = .rx) :
    TicksCounted 1 s (tickStep s) := by
  obtain ⟨h, -⟩ | ⟨-, -, ht, e⟩ | ⟨-, hstill, e⟩ := tickStep_cases s
  · simp [hrst] at h
  · rw [e]
    exact ⟨rfl, rfl, by bv_omega⟩
  · have ht : s.timer = 0#16 := hstill.resolve_left (by simp [hp])
    rw [e]
    exact ⟨rfl, rfl, by simp [ht]⟩

/-- A move of the line or of the tick source counts the tick it is, if it is one. -/
theorem ticksCounted_moveStep {m : Move} {s t : State} (hrst : s.rst = false) (hp : s.phase = .rx)
    (henv : isEnvironmentMove m = true) (h : MoveStep s m t) : TicksCounted ([m].count .tick) s t := by
  cases h with
  | line item bytes n => exact ticksCounted_carry bytes { s with draws := n }
  | wire =>
    rw [wireStep_eq_carry]
    exact ticksCounted_carry s.wire { s with wire := [] }
  | tick => exact ticksCounted_tickStep hrst hp
  | _ => cases henv

/-- Settles O39: by induction on the moves; only a tick changes the timer, and no move ends the read. -/
theorem timeoutBoundsWholeRead : Obligations.TimeoutBoundsWholeRead := by
  intro s t ms hrst hp henv h
  induction ms generalizing s with
  | nil =>
    obtain rfl : { s with schedule := [] } = t := Host.Outcome.next.inj h
    exact ⟨hp, rfl⟩
  | cons m ms ih =>
    obtain ⟨u, hu, hmove⟩ := runMove_moveStep m s
    obtain ⟨hrstu, hpu, htimer⟩ := ticksCounted_moveStep hrst hp (henv m List.mem_cons_self) hmove
    obtain ⟨hpt, htimert⟩ := ih u (hrstu.trans hrst) (hpu.trans hp)
      (fun m hm => henv m (List.mem_cons_of_mem _ hm)) ((after_cons_of_next hu ms).symm.trans h)
    refine ⟨hpt, ?_⟩
    rw [htimert, htimer, Nat.sub_sub, ← List.count_append, List.singleton_append]

end Sys2Proof.Machine
end

section
/-!
SUPPORT. Proofs of the statements of 43_exchange.md: the start and the end of an exchange (R160, R163, R164), its runs
on a silent line, on an answer and on an echo (R166), and its refinement by the five commands it is made of (R165).
-/

namespace Sys2Proof.Machine

open Sys2Proof

/-! ### The start (R160) -/

theorem decode_xchg (a : Byte) (b : Half) : decode (.word (commandWord 0x40#8 a b)) = .ok (.xchg a b) := by
  simp only [decode, decodeCommand, commandWord_op, commandWord_a, commandWord_b]

theorem exec_xchg {s : State} (hc : canAccept s = true) (a : Byte) (b : Half) :
    exec (.xchg a b) s = .next (beginTx .xchg (flush (loadRequest a b s))) := by
  unfold exec execXchg
  exact accept_ready hc _

/-- Settles O15: build, flush and start of `TX`, the request and its CRC written out by `buildReq_eq` and
`requestHead_eq`. -/
theorem xchgStartsExchange : Obligations.XchgStartsExchange := by
  refine ⟨decode_xchg, fun s a b hc => ?_⟩
  rw [exec_xchg hc, loadRequest, buildReq_eq, requestCrc, requestHead_eq]
  rfl

/-! ### The end of the read (R163, R164) -/

/-- At a full count or timer 0 the sequencer ends an exchange's read and posts the parse. -/
theorem runMove_seq_endExchange {s : State} (hrst : s.rst = false) (hp : s.phase = .rx) (hcur : s.cur = .xchg)
    (hdone : s.rlen = s.rmax ∨ s.timer = 0#16) :
    runMove .seq s = .next (respondParse (endCommand { s with tmo := readTimedOut s })) := by
  have hother : s.cur ≠ .read := by simp [hcur]
  exact congrArg Host.Outcome.next ((seqStep_endRx hrst hp hdone).trans (endRx_other hother))

/-- Settles O22: the parse is posted by the length of the response buffer, which the end of the read leaves. -/
theorem sequencerEndsExchange : Obligations.SequencerEndsExchange := by
  intro s hrst hp hcur
  refine ⟨fun hdone hlen => ?_, fun hdone hlen => ?_, fun hmax htimer =>
    congrArg Host.Outcome.next (seqStep_wait hp hmax htimer)⟩
  · exact (runMove_seq_endExchange hrst hp hcur hdone).trans
      (congrArg _ (respondParse_of_short (s := endCommand { s with tmo := readTimedOut s }) hlen))
  · obtain ⟨b3, b4, b5, b6, h3, h4, h5, h6, e⟩ :=
      respondParse_of_long (s := endCommand { s with tmo := readTimedOut s }) hlen
    exact ⟨b3, b4, b5, b6, h3, h4, h5, h6, (runMove_seq_endExchange hrst hp hcur hdone).trans (congrArg _ e)⟩

/-- The sequencer leaves `RX` only at a full count or timer 0. -/
theorem readDone_of_leaves_rx {s t : State} (hp : s.phase = .rx) (h : runMove .seq s = .next t)
    (ht : t.phase ≠ .rx) : s.rlen = s.rmax ∨ s.timer = 0#16 := by
  by_contra hwait
  obtain ⟨hmax, htimer⟩ := not_or.1 hwait
  obtain rfl : seqStep s = t := Host.Outcome.next.inj h
  rw [seqStep_wait hp hmax htimer] at ht
  exact ht hp

/-- Settles O43: the read of an exchange asks for `XMAX` bytes, and `XMAX` is at least the seven of a parse. -/
theorem shortExchangeHasTimedOut : Obligations.ShortExchangeHasTimedOut := by
  intro s t hinv hp hcur h ht
  have hrst : s.rst = false := hinv.rst_of_busy (by simp [hp])
  have hdone := readDone_of_leaves_rx hp h (by simp [ht])
  obtain ⟨-, -, -, -, -, hmax⟩ := hinv.rx hp
  obtain ⟨hmin, -⟩ := hinv.cfg
  rw [← hmax hcur] at hmin ⊢
  obtain ⟨hshort, hlong, -⟩ := sequencerEndsExchange s hrst hp hcur
  by_cases hlen : s.rlen < 7
  · obtain rfl := Host.Outcome.next.inj ((hshort hdone hlen).symm.trans h)
    have htmo : s.rlen < s.rmax := Nat.lt_of_lt_of_le hlen hmin
    exact ⟨decide_eq_true_iff, by simp [htmo]⟩
  · obtain ⟨b3, b4, b5, b6, -, -, -, -, e⟩ := hlong hdone (Nat.le_of_not_lt hlen)
    obtain rfl := Host.Outcome.next.inj (e.symm.trans h)
    exact ⟨decide_eq_true_iff, by simp⟩

/-! ### Runs of an exchange (R166) -/

/-- A run over two lists of moves goes on from the state the first leads to. -/
theorem after_append_of_next {ms : List Move} {s t : State} (h : after ms s = .next t) (ns : List Move) :
    after (ms ++ ns) s = after ns t := by
  rw [after_append, h]

/-- The block that has accepted an exchange. -/
def exchangeBegun (a : Byte) (b : Half) (s : State) : State :=
  beginTx .xchg (flush (loadRequest a b (record (.cmd (commandWord 0x40#8 a b)) { s with program := [] })))

/-- The block that has emitted the whole request of an exchange and not yet started the read. -/
def requestSent (a : Byte) (b : Half) (s : State) : State :=
  { exchangeBegun a b s with
    txi := Config.reqLen
    events := ((buildReq a b).map Event.tx).reverse ++ (exchangeBegun a b s).events
    schedule := [] }

/-- The host issues an exchange, its only command. -/
theorem runMove_issueXchg {s : State} (hc : canAccept s = true) (a : Byte) (b : Half) :
    runMove .host (withProgram [commandWord 0x40#8 a b] s) = .next (exchangeBegun a b s) :=
  (runMove_issue (s := withProgram [commandWord 0x40#8 a b] s) hc rfl (decode_xchg a b)).trans
    (exec_xchg (s := record _ { s with program := [] }) hc a b)

/-- Eight sequencer moves emit the request. -/
theorem after_request {s : State} (hc : canAccept s = true) (a : Byte) (b : Half) :
    after (.host :: List.replicate 8 .seq) (withProgram [commandWord 0x40#8 a b] s) =
      .next (requestSent a b s) := by
  obtain ⟨-, -, hrst⟩ := (canAccept_iff s).1 hc
  exact (after_cons_of_next (runMove_issueXchg hc a b) _).trans
    (after_emit 8 (s := exchangeBegun a b s) hrst rfl rfl)

/-- Once the request is emitted the sequencer starts the read, for `XMAX` bytes and 100 ticks, with what is pending. -/
theorem runMove_seq_startRead {s : State} (hrst : s.rst = false) (hp : s.phase = .tx) (hi : s.txi = s.txlen)
    (hcur : s.cur = .xchg) : runMove .seq s = .next (beginRx s.cfg.xmax Config.tRespTicks s) := by
  obtain ⟨-, h⟩ := sequencerEndsTransmission s hrst hp hi
  exact h hcur

/-- A ninth move starts the read; nothing is pending when nothing has come since the flush. -/
theorem after_request_startRead {s : State} (hc : canAccept s = true) (a : Byte) (b : Half) :
    after (.host :: List.replicate 9 .seq) (withProgram [commandWord 0x40#8 a b] s) =
      .next (beginRx s.cfg.xmax Config.tRespTicks (requestSent a b s)) := by
  obtain ⟨-, -, hrst⟩ := (canAccept_iff s).1 hc
  rw [List.replicate_succ', ← List.cons_append, after_append_of_next (after_request hc a b)]
  exact after_cons_of_next (runMove_seq_startRead (s := requestSent a b s) hrst rfl rfl rfl) []

/-- The timer of a read counts as many ticks as it has left, or fewer, down one by one. -/
theorem after_ticks (n : Nat) {s : State} (hrst : s.rst = false) (hp : s.phase = .rx) (hn : n ≤ s.timer.toNat) :
    after (List.replicate n .tick) s = .next { s with
      timer := s.timer - BitVec.ofNat 16 n, events := List.replicate n .tick ++ s.events, schedule := [] } := by
  induction n generalizing s with
  | zero => simp
  | succ n ih =>
    have ht : s.timer ≠ 0#16 := by
      intro h
      simp [h] at hn
    obtain ⟨hcount, -⟩ := tickCountsReadTimer s hrst
    have hn' : n ≤ (s.timer - 1#16).toNat := by bv_omega
    have htimer : s.timer - 1#16 - BitVec.ofNat 16 n = s.timer - BitVec.ofNat 16 (n + 1) := by bv_omega
    have hev : List.replicate n Event.tick ++ .tick :: s.events = List.replicate (n + 1) .tick ++ s.events := by
      rw [List.replicate_succ', List.append_assoc, List.singleton_append]
    rw [List.replicate_succ, after_cons_of_next (hcount hp ht), ← htimer, ← hev]
    exact ih (s := { s with timer := s.timer - 1#16, events := .tick :: s.events }) hrst hp hn'

/-- The read of an exchange after `n` ticks on a line that has been silent since the request was accepted. -/
def silentRead (n : Nat) (a : Byte) (b : Half) (s : State) : State :=
  { beginRx s.cfg.xmax Config.tRespTicks (requestSent a b s) with
    timer := Config.tRespTicks - BitVec.ofNat 16 n
    events := List.replicate n .tick ++ (requestSent a b s).events
    schedule := [] }

/-- The exchange, its request, the start of its read and `n` ticks. -/
theorem after_silentRead {n : Nat} (hn : n ≤ 100) {s : State} (hc : canAccept s = true) (a : Byte) (b : Half)
    (ms : List Move) :
    after (.host :: List.replicate 9 .seq ++ List.replicate n .tick ++ ms) (withProgram [commandWord 0x40#8 a b] s) =
      after ms (silentRead n a b s) := by
  obtain ⟨-, -, hrst⟩ := (canAccept_iff s).1 hc
  have hticks := after_ticks n (s := beginRx s.cfg.xmax Config.tRespTicks (requestSent a b s)) hrst rfl hn
  exact after_append_of_next ((after_append_of_next (after_request_startRead hc a b) _).trans hticks) ms

/-- The bytes that the events added to a history say were emitted come last. -/
theorem emitted_of_events_append {es : List Event} {s t : State} (h : t.events = es ++ s.events) :
    emitted t = emitted s ++ es.reverse.filterMap sentByte := by
  simp only [emitted, h, List.reverse_append, List.filterMap_append]
  rfl

/-- An exchange on a silent line has emitted its request. -/
theorem emitted_silentRead (n : Nat) (a : Byte) (b : Half) (s : State) :
    emitted (silentRead n a b s) = emitted s ++ buildReq a b := by
  have hsent : emitted (requestSent a b s) = emitted (exchangeBegun a b s) ++ buildReq a b := by
    rw [emitted_of_events_append (s := exchangeBegun a b s) rfl, List.reverse_reverse, List.filterMap_map]
    exact congrArg _ (List.filterMap_some)
  have hcmd : emitted (exchangeBegun a b s) = emitted s := emitted_of_no_byte rfl rfl
  have hticks : (List.replicate n Event.tick).reverse.filterMap sentByte = [] := by
    simp [sentByte]
  rw [emitted_of_events_append (s := requestSent a b s) rfl, hticks, List.append_nil, hsent, hcmd]

theorem rlen_silentRead (n : Nat) (a : Byte) (b : Half) (s : State) : (silentRead n a b s).rlen = 0 :=
  congrArg List.length (List.take_nil (i := s.cfg.xmax))

/-- Settles O40: nothing is pending and nothing comes, so the read holds no byte, and its timer is 0 after 100 ticks and
1 after 99. -/
theorem silentLineTimesOutExchange : Obligations.SilentLineTimesOutExchange := by
  intro s a b hinv hc
  obtain ⟨-, hrsp, hrst⟩ := (canAccept_iff s).1 hc
  obtain ⟨hmin, -⟩ := hinv.cfg
  have hwants (n : Nat) : (silentRead n a b s).rlen < s.cfg.xmax := by
    rw [rlen_silentRead]
    exact Nat.lt_of_lt_of_le (by decide) hmin
  constructor
  · obtain ⟨hshort, -⟩ := sequencerEndsExchange (silentRead 100 a b s) hrst rfl rfl
    have hend := hshort (.inr rfl) (by rw [rlen_silentRead]; decide)
    refine ⟨_, (after_silentRead le_rfl hc a b _).trans (after_cons_of_next hend []), ?_, rfl,
      decide_eq_true (hwants 100), rlen_silentRead 100 a b s, emitted_silentRead 100 a b s⟩
    exact congrArg (fun k => some (Response.mk 0x01#8 (BitVec.ofNat 32 k))) (rlen_silentRead 100 a b s)
  · obtain ⟨-, -, hwait⟩ := sequencerEndsExchange (silentRead 99 a b s) hrst rfl rfl
    have hstay := hwait (hwants 99).ne (by decide : Config.tRespTicks - BitVec.ofNat 16 99 ≠ 0#16)
    exact ⟨_, (after_silentRead (by decide) hc a b _).trans (after_cons_of_next hstay []), hrsp, rfl⟩

/-- A read takes all the bytes delivered when it wants that many. -/
theorem delivered_of_wanted {bytes : List Byte} {s : State} (h : bytes.length ≤ wanted s) :
    (delivered bytes s).rbuf = s.rbuf ++ bytes ∧ (delivered bytes s).rxq = s.rxq := by
  simp only [delivered, List.take_of_length_le h, List.drop_eq_nil_of_le h, List.take_nil, List.append_nil, and_self]

/-- With no read in progress all the bytes delivered are pending when there is room for them. -/
theorem delivered_of_room {bytes : List Byte} {s : State} (hp : s.phase ≠ .rx)
    (h : bytes.length ≤ s.cfg.rxdepth - s.rxq.length) : (delivered bytes s).rxq = s.rxq ++ bytes := by
  simp only [delivered, wanted, if_neg hp, List.drop_zero, List.take_of_length_le h]

/-- Nine bytes in the read of an exchange for nine end it at once with bytes 3 to 6. -/
theorem after_endExchange_nine {s : State} {v0 v1 v2 v3 v4 v5 v6 v7 v8 : Byte} (hrst : s.rst = false)
    (hp : s.phase = .rx) (hcur : s.cur = .xchg) (hmax : s.rmax = 9)
    (hbuf : s.rbuf = [v0, v1, v2, v3, v4, v5, v6, v7, v8]) :
    ∃ t, after [.seq] s = .next t ∧ t.rsp = some ⟨0x00#8, v3 ++ v4 ++ v5 ++ v6⟩ ∧ t.tmo = false ∧
      t.phase = .idle ∧ t.rbuf = s.rbuf ∧ t.rxq = s.rxq := by
  have hlen : s.rlen = 9 := congrArg List.length hbuf
  obtain ⟨-, hlong, -⟩ := sequencerEndsExchange s hrst hp hcur
  obtain ⟨b3, b4, b5, b6, h3, h4, h5, h6, hend⟩ := hlong (.inl (hlen.trans hmax.symm)) (by omega)
  rw [hbuf] at h3 h4 h5 h6
  cases h3; cases h4; cases h5; cases h6
  exact ⟨_, after_cons_of_next hend [], rfl, by simp [hlen, hmax], rfl, rfl, rfl⟩

/-- When what is pending at the start of an exchange's read and what comes after it are nine bytes, as many as the read
asks for, the exchange ends with bytes 3 to 6 of them. -/
theorem after_read_nine {s : State} {bytes : List Byte} {v0 v1 v2 v3 v4 v5 v6 v7 v8 : Byte} (hrst : s.rst = false)
    (hp : s.phase = .tx) (hi : s.txi = s.txlen) (hcur : s.cur = .xchg) (hxmax : s.cfg.xmax = 9)
    (hnine : s.rxq ++ bytes = [v0, v1, v2, v3, v4, v5, v6, v7, v8]) :
    ∃ t, after (.seq :: charMoves bytes ++ [.seq]) s = .next t ∧ t.rsp = some ⟨0x00#8, v3 ++ v4 ++ v5 ++ v6⟩ ∧
      t.tmo = false ∧ t.phase = .idle ∧ t.rbuf = [v0, v1, v2, v3, v4, v5, v6, v7, v8] ∧ t.rxq = [] := by
  have hstart := runMove_seq_startRead hrst hp hi hcur
  rw [hxmax] at hstart
  have hlen : s.rxq.length + bytes.length = 9 := by rw [← List.length_append, hnine]; rfl
  have hwanted : bytes.length ≤ wanted (beginRx 9 Config.tRespTicks s) := by
    simp only [wanted, beginRx_phase, beginRx_rmax, beginRx_rlen, if_true]
    omega
  obtain ⟨hbuf, hrxq⟩ := delivered_of_wanted hwanted
  rw [beginRx_rbuf, List.take_of_length_le (by omega), hnine] at hbuf
  rw [beginRx_rxq, List.drop_eq_nil_of_le (by omega)] at hrxq
  have hbytes := (after_cons_of_next hstart _).trans (after_charMoves bytes (s := beginRx 9 Config.tRespTicks s) hrst)
  obtain ⟨t, hend, hrsp, htmo, hidle, hbuft, hrxqt⟩ := after_endExchange_nine
    (s := { delivered bytes (beginRx 9 Config.tRespTicks s) with schedule := [] }) hrst rfl hcur rfl hbuf
  exact ⟨t, (after_append_of_next hbytes _).trans hend, hrsp, htmo, hidle, hbuft.trans hbuf, hrxqt.trans hrxq⟩

/-- Settles O41: nothing is pending when the read starts, and the nine bytes fill it. -/
theorem nineByteAnswerIsReturned : Obligations.NineByteAnswerIsReturned := by
  intro s a b v0 v1 v2 v3 v4 v5 v6 v7 v8 _ hc hxmax
  obtain ⟨-, -, hrst⟩ := (canAccept_iff s).1 hc
  obtain ⟨t, hrun, hend⟩ := after_read_nine (s := requestSent a b s) (bytes := [v0, v1, v2, v3, v4, v5, v6, v7, v8])
    hrst rfl rfl rfl hxmax rfl
  exact ⟨t, (after_append_of_next (after_request hc a b) _).trans hrun, hend⟩

/-- Settles O42: the eight bytes of the echo are pending when the read starts, and the ninth byte fills it. -/
theorem echoIsReturnedAsData : Obligations.EchoIsReturnedAsData := by
  intro s a v b _ hc hxmax hdepth
  obtain ⟨-, -, hrst⟩ := (canAccept_iff s).1 hc
  have hecho := (after_append_of_next (after_request hc a b) _).trans
    (after_charMoves (buildReq a b) (s := requestSent a b s) hrst)
  have hpending : (delivered (buildReq a b) (requestSent a b s)).rxq = buildReq a b :=
    delivered_of_room (s := requestSent a b s) nofun hdepth
  obtain ⟨t, hrun, hrsp, -⟩ := after_read_nine
    (s := { delivered (buildReq a b) (requestSent a b s) with schedule := [] }) (bytes := [v]) hrst rfl rfl rfl hxmax
    (congrArg (· ++ [v]) hpending)
  refine ⟨t, ?_, hrsp⟩
  rw [List.append_assoc, List.append_assoc]
  exact (after_append_of_next hecho _).trans hrun

/-! ### An exchange and its parts (R165) -/

/-- The same bytes emitted and the same bytes received. -/
def SameBytes (s t : State) : Prop := emitted t = emitted s ∧ received t = received s

/-- Most events are no byte of the line. -/
theorem sameBytes_of_silent {e : Event} {s t : State} (h : t.events = e :: s.events) (hsent : sentByte e = none)
    (hkept : keptByte e = none) : SameBytes s t :=
  ⟨emitted_of_no_byte h hsent, received_of_no_byte h hkept⟩

theorem SameBytes.symm {s t : State} (h : SameBytes s t) : SameBytes t s := ⟨h.1.symm, h.2.symm⟩

theorem SameBytes.trans {s t u : State} (h : SameBytes s t) (h' : SameBytes t u) : SameBytes s u :=
  ⟨h'.1.trans h.1, h'.2.trans h.2⟩

/-- One more event on both sides. -/
theorem SameBytes.record {e : Event} {s s' t t' : State} (h : SameBytes s t) (hs : s'.events = e :: s.events)
    (ht : t'.events = e :: t.events) : SameBytes s' t' := by
  obtain ⟨hsent, hkept⟩ := h
  rw [SameBytes, emitted_of_events_cons hs, emitted_of_events_cons ht, received_of_events_cons hs,
    received_of_events_cons ht, hsent, hkept]
  exact ⟨rfl, rfl⟩

/-- The second state is the first but for the command in progress, the response, the program and the history, with
the same bytes emitted and received. -/
def Alongside (c : Cur) (r : Option Response) (ws : List Word) (s t : State) : Prop :=
  SameBytes s t ∧ ∃ es, t = { s with cur := c, rsp := r, program := ws, events := es }

/-! The line and the tick do not look at the command in progress. -/

section

variable {c : Cur} {r : Option Response} {ws : List Word} {s t : State}

theorem Alongside.wire_eq (h : Alongside c r ws s t) : t.wire = s.wire := by
  obtain ⟨-, es, rfl⟩ := h
  rfl

theorem Alongside.draws_eq (h : Alongside c r ws s t) : t.draws = s.draws := by
  obtain ⟨-, es, rfl⟩ := h
  rfl

theorem Alongside.withWire (h : Alongside c r ws s t) (bytes : List Byte) :
    Alongside c r ws { s with wire := bytes } { t with wire := bytes } := by
  obtain ⟨hbytes, es, rfl⟩ := h
  exact ⟨hbytes, es, rfl⟩

theorem Alongside.withDraws (h : Alongside c r ws s t) (n : Nat) :
    Alongside c r ws { s with draws := n } { t with draws := n } := by
  obtain ⟨hbytes, es, rfl⟩ := h
  exact ⟨hbytes, es, rfl⟩

theorem Alongside.withSchedule (h : Alongside c r ws s t) (ms : List Move) :
    Alongside c r ws { s with schedule := ms } { t with schedule := ms } := by
  obtain ⟨hbytes, es, rfl⟩ := h
  exact ⟨hbytes, es, rfl⟩

theorem Alongside.lineStep (h : Alongside c r ws s t) (v : Byte) :
    Alongside c r ws (lineStep v s) (lineStep v t) := by
  obtain ⟨hbytes, es, rfl⟩ := h
  obtain ⟨hrst, e⟩ | ⟨hrst, hp, hl, e⟩ | ⟨hrst, hp, hq, e⟩ | ⟨hrst, hp, hq, e⟩ := lineStep_cases v s <;> rw [e]
  · rw [lineStep_reset v (by exact hrst)]
    exact ⟨hbytes, es, rfl⟩
  · rw [lineStep_read v (by exact hrst) (by exact hp) (by exact hl)]
    exact ⟨hbytes.record (e := .rx v true) rfl rfl, _, rfl⟩
  · rw [lineStep_queue v (by exact hrst) (by exact hp) (by exact hq)]
    exact ⟨hbytes.record (e := .rx v true) rfl rfl, _, rfl⟩
  · rw [lineStep_drop v (by exact hrst) (by exact hp) (by exact hq)]
    exact ⟨hbytes.record (e := .rx v false) rfl rfl, _, rfl⟩

theorem Alongside.carry (h : Alongside c r ws s t) (bytes : List Byte) :
    Alongside c r ws (carry bytes s) (carry bytes t) := by
  cases bytes with
  | nil => exact h
  | cons v rest =>
    rw [carry_cons, carry_cons, h.wire_eq]
    exact (h.withWire (rest ++ s.wire)).lineStep v

theorem Alongside.wireStep (h : Alongside c r ws s t) : Alongside c r ws (wireStep s) (wireStep t) := by
  rw [wireStep_eq_carry, wireStep_eq_carry, h.wire_eq]
  exact (h.withWire []).carry s.wire

theorem Alongside.tickStep (h : Alongside c r ws s t) : Alongside c r ws (tickStep s) (tickStep t) := by
  obtain ⟨hbytes, es, rfl⟩ := h
  unfold Machine.tickStep
  dsimp only [Machine.record]
  split
  · exact ⟨hbytes, es, rfl⟩
  · split <;> exact ⟨hbytes.record (e := .tick) rfl rfl, _, rfl⟩

/-- What an item on the line brings depends on the item and the count of free values alone. -/
theorem lineMove_uniform (item : LineItem) (n : Nat) :
    ∃ bytes n', ∀ s : State, s.draws = n →
      lineMove item s = .next (Machine.carry bytes { s with draws := n' }) := by
  cases h : decode (.line item) with
  | ok i =>
    obtain ⟨bytes, hb⟩ := exec_of_line h
    refine ⟨bytes, n, ?_⟩
    rintro s rfl
    simp only [lineMove, h, hb]
  | error e =>
    cases item with
    | frame bytes =>
      refine ⟨bytes, n, ?_⟩
      rintro s rfl
      simp only [lineMove, h, lineNoise]
    | char bits =>
      refine ⟨(Config.malformed n).toList, n + 1, ?_⟩
      rintro s rfl
      simp only [lineMove, h, lineNoise]
      cases Config.malformed s.draws <;> rfl

/-- A move of the line or of the tick source does the same on both sides. -/
theorem Alongside.environment {m : Move} {s' : State} (h : Alongside c r ws s t) (henv : isEnvironmentMove m = true)
    (hs : runMove m s = .next s') : ∃ t', runMove m t = .next t' ∧ Alongside c r ws s' t' := by
  cases m with
  | line item =>
    obtain ⟨bytes, n, hmove⟩ := lineMove_uniform item s.draws
    obtain rfl := Host.Outcome.next.inj ((hmove s rfl).symm.trans hs)
    exact ⟨_, hmove t h.draws_eq, (h.withDraws n).carry bytes⟩
  | wire =>
    obtain rfl := Host.Outcome.next.inj hs
    exact ⟨_, rfl, h.wireStep⟩
  | tick =>
    obtain rfl := Host.Outcome.next.inj hs
    exact ⟨_, rfl, h.tickStep⟩
  | _ => cases henv

end

/-! The line and the tick leave the command in progress, its phase and its response. -/

theorem sameCommand_lineStep (v : Byte) (s : State) :
    (lineStep v s).rst = s.rst ∧ SameCommand s (lineStep v s) := by
  obtain ⟨-, e⟩ | ⟨-, -, -, e⟩ | ⟨-, -, -, e⟩ | ⟨-, -, -, e⟩ := lineStep_cases v s <;> rw [e] <;>
    exact ⟨rfl, sameCommand_refl s⟩

theorem sameCommand_carry (bytes : List Byte) (s : State) :
    (carry bytes s).rst = s.rst ∧ SameCommand s (carry bytes s) := by
  cases bytes with
  | nil => exact ⟨rfl, sameCommand_refl s⟩
  | cons v rest => exact sameCommand_lineStep v { s with wire := rest ++ s.wire }

theorem sameCommand_tickStep (s : State) : (tickStep s).rst = s.rst ∧ SameCommand s (tickStep s) := by
  obtain ⟨-, e⟩ | ⟨-, -, -, e⟩ | ⟨-, -, e⟩ := tickStep_cases s <;> rw [e] <;> exact ⟨rfl, sameCommand_refl s⟩

theorem sameCommand_environment {m : Move} {s t : State} (henv : isEnvironmentMove m = true)
    (h : MoveStep s m t) : t.rst = s.rst ∧ SameCommand s t := by
  cases h with
  | line item bytes n => exact sameCommand_carry bytes { s with draws := n }
  | wire =>
    rw [wireStep_eq_carry]
    exact sameCommand_carry s.wire { s with wire := [] }
  | tick => exact sameCommand_tickStep s
  | _ => cases henv

/-- A move of the block is the sequencer's, or one of the line or the tick source. -/
theorem isBlockMove_cases {m : Move} (h : isBlockMove m = true) : m = .seq ∨ isEnvironmentMove m = true := by
  cases m with
  | seq => exact .inl rfl
  | host | reset | release => cases h
  | line | wire | tick => exact .inr rfl

/-- A relation that every move of a list keeps, whatever the moves to come, is kept by the run over the list. -/
theorem after_simulates {R : State → State → Prop} {ms : List Move}
    (hstep : ∀ m ∈ ms, ∀ s t s', R s t → runMove m s = .next s' → ∃ t', runMove m t = .next t' ∧ R s' t')
    (hsched : ∀ s t, R s t → R { s with schedule := [] } { t with schedule := [] })
    {s t s' : State} (h : R s t) (hs : after ms s = .next s') : ∃ t', after ms t = .next t' ∧ R s' t' := by
  induction ms generalizing s t with
  | nil =>
    obtain rfl := Host.Outcome.next.inj hs
    exact ⟨_, rfl, hsched s t h⟩
  | cons m ms ih =>
    obtain ⟨u, hu, -⟩ := runMove_moveStep m s
    obtain ⟨v, hv, huv⟩ := hstep m List.mem_cons_self s t u h hu
    obtain ⟨t', ht, hst⟩ := ih (fun m hm => hstep m (List.mem_cons_of_mem _ hm)) huv
      ((after_cons_of_next hu ms).symm.trans hs)
    exact ⟨t', (after_cons_of_next hv ms).trans ht, hst⟩

/-! While the request is sent, the exchange runs alongside `TR_WRITE`. -/

/-- The commands that follow `TR_WRITE`. -/
def readAndParse (xmax : Nat) (a : Byte) : List Word :=
  [commandWord 0x32#8 (BitVec.ofNat 8 xmax) 100#16, commandWord 0x21#8 a 0]

/-- If the exchange still sends its request, the parts do, with the read and the parse to follow. -/
def SendsAlongside (a : Byte) (s t : State) : Prop :=
  s.phase = .tx → Inv s ∧ s.cur = .xchg ∧ Alongside .write none (readAndParse s.cfg.xmax a) s t

/-- The sequencer emits the same byte on both sides. -/
theorem Alongside.emit {c : Cur} {r : Option Response} {ws : List Word} {s t : State} {v : Byte}
    (h : Alongside c r ws s t) (hrst : s.rst = false) (hp : s.phase = .tx) (hv : s.txbuf[s.txi]? = some v) :
    Alongside c r ws (seqStep s) (seqStep t) := by
  obtain ⟨hbytes, es, rfl⟩ := h
  rw [seqStep_emit hrst hp hv, seqStep_emit (by exact hrst) (by exact hp) (by exact hv)]
  exact ⟨hbytes.record (e := .tx v) rfl rfl, _, rfl⟩

/-- A move of the block that leaves the exchange in `TX` found it there. -/
theorem phase_tx_of_moveStep {m : Move} {s t : State} (hb : isBlockMove m = true) (h : MoveStep s m t)
    (ht : t.phase = .tx) : s.phase = .tx := by
  obtain rfl | henv := isBlockMove_cases hb
  · cases h
    obtain e | ⟨_, -, hp, -, -⟩ | ⟨-, hp, -, -⟩ | ⟨-, -, -, e⟩ := seqStep_cases s
    · rwa [e] at ht
    · exact hp
    · exact hp
    · obtain ⟨c, d, -, e'⟩ := endRx_answers s
      rw [e, e'] at ht
      cases ht
  · obtain ⟨-, hp, -⟩ := sameCommand_environment henv h
    exact hp.symm.trans ht

theorem SendsAlongside.withSchedule {a : Byte} {s t : State} (h : SendsAlongside a s t) (ms : List Move) :
    SendsAlongside a { s with schedule := ms } { t with schedule := ms } := by
  intro hp
  obtain ⟨hinv, hcur, hst⟩ := h hp
  exact ⟨hinv.frame s.program s.wire ms s.draws s.events, hcur, hst.withSchedule ms⟩

/-- A move of the block that leaves the exchange in `TX` does the same for the parts. -/
theorem sendsAlongside_step {a : Byte} {m : Move} {s t s' : State} (hb : isBlockMove m = true)
    (h : SendsAlongside a s t) (hs : runMove m s = .next s') :
    ∃ t', runMove m t = .next t' ∧ SendsAlongside a s' t' := by
  have hm := moveStep_of_runMove hs
  by_cases htx : s'.phase = .tx
  · have hp := phase_tx_of_moveStep hb hm htx
    obtain ⟨hinv, hcur, hst⟩ := h hp
    rw [← moveStep_cfg hm] at hst
    obtain rfl | henv := isBlockMove_cases hb
    · obtain rfl := Host.Outcome.next.inj hs
      have hrst := hinv.rst_of_busy (by simp [hp])
      obtain ⟨-, hi, -⟩ := hinv.tx hp
      obtain hi | hi := hi.lt_or_eq
      · have hv := List.getElem?_eq_getElem hi
        refine ⟨_, rfl, fun _ => ⟨inv_seqStep hinv, ?_, hst.emit hrst hp hv⟩⟩
        rw [seqStep_emit hrst hp hv]
        exact hcur
      · rw [seqStep_endTx hrst hp hi, endTx_other (by simp [hcur])] at htx
        cases htx
    · obtain ⟨t', ht, hst'⟩ := hst.environment henv hs
      obtain ⟨-, -, hcur', -⟩ := sameCommand_environment henv hm
      exact ⟨t', ht, fun _ => ⟨inv_moveStep hinv hm, hcur'.trans hcur, hst'⟩⟩
  · obtain ⟨t', ht, -⟩ := runMove_moveStep m t
    exact ⟨t', ht, fun h => absurd h htx⟩

/-! While bytes are read and after, the exchange runs alongside `TR_READ`. -/

/-- Both sides read, or both have ended: the exchange with the parse posted, the read with a response to take. -/
def ReadsAlongside (ws : List Word) (s t : State) : Prop :=
  s.rst = false ∧
    ((s.phase = .rx ∧ s.cur = .xchg ∧ Alongside .read none ws s t) ∨
      (s.phase = .idle ∧ s.cur = .none ∧ s.rsp = (respondParse s).rsp ∧ ∃ r, Alongside .none (some r) ws s t))

/-- A parse depends on the response buffer alone. -/
theorem respondParse_rsp_congr {s t : State} (h : s.rbuf = t.rbuf) : (respondParse s).rsp = (respondParse t).rsp := by
  have hlen : s.rlen = t.rlen := congrArg List.length h
  unfold respondParse raiseShortResponse
  rw [h, hlen]
  split <;> rfl

/-- The sequencer waits on both sides, or ends the exchange with the parse and the read with its data. -/
theorem readsAlongside_seqStep {ws : List Word} {s t : State} (hrst : s.rst = false) (hp : s.phase = .rx)
    (hcur : s.cur = .xchg) (h : Alongside .read none ws s t) : ReadsAlongside ws (seqStep s) (seqStep t) := by
  obtain ⟨hbytes, es, rfl⟩ := h
  by_cases hdone : s.rlen = s.rmax ∨ s.timer = 0#16
  · obtain ⟨c, d, -, e⟩ := respondParse_answers (endCommand { s with tmo := readTimedOut s })
    have hparse : (respondParse (endCommand { s with tmo := readTimedOut s })).rsp = some ⟨c, d⟩ := by rw [e]; rfl
    rw [seqStep_endRx hrst hp hdone, endRx_other (by simp [hcur]), e,
      seqStep_endRx (by exact hrst) (by exact hp) (by exact hdone), endRx_read rfl]
    exact ⟨hrst, .inr ⟨rfl, rfl, hparse.symm.trans (respondParse_rsp_congr rfl), _, hbytes, es, rfl⟩⟩
  · obtain ⟨hmax, htimer⟩ := not_or.1 hdone
    rw [seqStep_wait hp hmax htimer, seqStep_wait (by exact hp) (by exact hmax) (by exact htimer)]
    exact ⟨hrst, .inl ⟨hp, hcur, hbytes, es, rfl⟩⟩

theorem Alongside.phase_eq {c : Cur} {r : Option Response} {ws : List Word} {s t : State}
    (h : Alongside c r ws s t) : t.phase = s.phase := by
  obtain ⟨-, es, rfl⟩ := h
  rfl

theorem ReadsAlongside.withSchedule {ws : List Word} {s t : State} (h : ReadsAlongside ws s t) (ms : List Move) :
    ReadsAlongside ws { s with schedule := ms } { t with schedule := ms } := by
  obtain ⟨hrst, ⟨hp, hcur, hst⟩ | ⟨hp, hcur, hparse, r, hst⟩⟩ := h
  · exact ⟨hrst, .inl ⟨hp, hcur, hst.withSchedule ms⟩⟩
  · exact ⟨hrst, .inr ⟨hp, hcur, hparse.trans (respondParse_rsp_congr rfl), r, hst.withSchedule ms⟩⟩

/-- A move of the block does the same for both reads, and after them. -/
theorem readsAlongside_step {ws : List Word} {m : Move} {s t s' : State} (hb : isBlockMove m = true)
    (h : ReadsAlongside ws s t) (hs : runMove m s = .next s') :
    ∃ t', runMove m t = .next t' ∧ ReadsAlongside ws s' t' := by
  have hm := moveStep_of_runMove hs
  obtain ⟨hrst, ⟨hp, hcur, hst⟩ | ⟨hp, hcur, hparse, r, hst⟩⟩ := h
  · obtain rfl | henv := isBlockMove_cases hb
    · obtain rfl := Host.Outcome.next.inj hs
      exact ⟨_, rfl, readsAlongside_seqStep hrst hp hcur hst⟩
    · obtain ⟨t', ht, hst'⟩ := hst.environment henv hs
      obtain ⟨hrst', hp', hcur', -⟩ := sameCommand_environment henv hm
      exact ⟨t', ht, hrst'.trans hrst, .inl ⟨hp'.trans hp, hcur'.trans hcur, hst'⟩⟩
  · obtain rfl | henv := isBlockMove_cases hb
    · obtain rfl := Host.Outcome.next.inj hs
      refine ⟨_, rfl, ?_⟩
      rw [seqStep_idle hp, seqStep_idle (hst.phase_eq.trans hp)]
      exact ⟨hrst, .inr ⟨hp, hcur, hparse, r, hst⟩⟩
    · obtain ⟨t', ht, hst'⟩ := hst.environment henv hs
      obtain ⟨hrst', hp', hcur', hrsp'⟩ := sameCommand_environment henv hm
      obtain ⟨hview, -, -⟩ := onlyPendingInput_moveStep hp (by rintro rfl; cases henv) (by rintro rfl; cases henv) hm
      have hbuf : s'.rbuf = s.rbuf := congrArg BlockView.rbuf hview
      exact ⟨t', ht, hrst'.trans hrst, .inr ⟨hp'.trans hp, hcur'.trans hcur,
        (hrsp'.trans hparse).trans (respondParse_rsp_congr hbuf.symm), r, hst'⟩⟩

/-! What the host does for the parts. -/

/-- The block after the host has issued a command that does this and answers `(OK, 0)`, and has taken the answer. -/
def answered (w : Word) (ws : List Word) (work : State → State) (s : State) : State :=
  takeResponse ⟨codeOk, 0#32⟩ (respond codeOk 0#32 (work (record (.cmd w) { s with program := ws })))

/-- Two host moves issue such a command and take its answer; no byte is sent or received, and the block accepts
again. -/
theorem after_answered {s : State} {w : Word} {ws : List Word} {i : Instr} {work : State → State}
    (hc : canAccept s = true) (hprog : s.program = w :: ws) (hdec : decode (.word w) = .ok i)
    (hexec : ∀ u, canAccept u = true → exec i u = .next (respond codeOk 0#32 (work u)))
    (hkeep : ∀ u, (work u).phase = u.phase ∧ (work u).rst = u.rst ∧ (work u).events = u.events) :
    canAccept (answered w ws work s) = true ∧ SameBytes s (answered w ws work s) ∧
      ∀ ms, after (.host :: .host :: ms) s = after ms (answered w ws work s) := by
  obtain ⟨hidle, -, hrst⟩ := (canAccept_iff s).1 hc
  obtain ⟨hphase, hlevel, hevents⟩ := hkeep (record (.cmd w) { s with program := ws })
  have hissue := (runMove_issue hc hprog hdec).trans (hexec _ hc)
  have htake := runMove_take (hlevel.trans hrst) codeOk 0#32
  have hissued : SameBytes s (work (record (.cmd w) { s with program := ws })) := sameBytes_of_silent hevents rfl rfl
  exact ⟨(canAccept_iff _).2 ⟨hphase.trans hidle, rfl, hlevel.trans hrst⟩,
    hissued.trans (sameBytes_of_silent (e := .rsp codeOk 0#32) rfl rfl rfl),
    fun ms => (after_cons_of_next hissue _).trans (after_cons_of_next htake ms)⟩

/-- The five commands an exchange is made of. -/
def partsProgram (xmax : Nat) (a : Byte) (b : Half) : List Word :=
  commandWord 0x20#8 a b :: commandWord 0x30#8 0 0 :: commandWord 0x31#8 0 0 :: readAndParse xmax a

/-- Five host moves build the request, flush the pending input and start `TX`, as the accept step of `XCHG` does. -/
theorem after_partsBegun {s : State} (hinv : Inv s) (hc : canAccept s = true) (a : Byte) (b : Half) :
    ∃ t, (∀ ms, after (List.replicate 5 .host ++ ms) (withProgram (partsProgram s.cfg.xmax a b) s) = after ms t) ∧
      SendsAlongside a (exchangeBegun a b s) t := by
  obtain ⟨hcBuilt, hbytesBuilt, hbuilt⟩ := after_answered (s := withProgram (partsProgram s.cfg.xmax a b) s) hc rfl
    (decode_bldReq a b) (fun _ hcu => exec_bldReq hcu a b) (fun _ => ⟨rfl, rfl, rfl⟩)
  obtain ⟨hcFlushed, hbytesFlushed, hflushed⟩ := after_answered hcBuilt rfl (decode_trFlush 0 0)
    (fun _ => exec_trFlush) (fun _ => ⟨rfl, rfl, rfl⟩)
  have hbegun := (runMove_issue hcFlushed rfl (decode_trWrite 0 0)).trans (exec_trWrite (by exact hcFlushed))
  have hbytesXchg : SameBytes s (exchangeBegun a b s) := sameBytes_of_silent rfl rfl rfl
  refine ⟨_, fun ms => (hbuilt _).trans ((hflushed _).trans (after_cons_of_next hbegun ms)), fun _ => ⟨?_, rfl, ?_⟩⟩
  · exact inv_acceptStep (hinv.frame [] s.wire s.schedule s.draws _) hc (.xchg a b)
  · have hbytesBegun := hbytesXchg.symm.trans (hbytesBuilt.trans hbytesFlushed)
    exact ⟨hbytesBegun.trans (sameBytes_of_silent (e := .cmd (commandWord 0x31#8 0 0)) rfl rfl rfl), _, rfl⟩

/-- Two host moves take the response that waits and issue the next command. -/
theorem Alongside.takeAndIssue {c : Cur} {r : Response} {w : Word} {ws : List Word} {i : Instr} {s t : State}
    (h : Alongside c (some r) (w :: ws) s t) (hrst : s.rst = false) (hp : s.phase = .idle)
    (hdec : decode (.word w) = .ok i) :
    ∃ u, Alongside c none ws s u ∧ canAccept u = true ∧
      ∀ u', exec i u = .next u' → ∀ ms, after (.host :: .host :: ms) t = after ms u' := by
  obtain ⟨hbytes, es, rfl⟩ := h
  have htake : runMove .host { s with cur := c, rsp := some r, program := w :: ws, events := es } = _ :=
    hostMove_take (by exact hrst) rfl
  have hc : canAccept (takeResponse r { s with cur := c, rsp := some r, program := w :: ws, events := es }) = true :=
    (canAccept_iff _).2 ⟨hp, rfl, hrst⟩
  have htaken := hbytes.trans (sameBytes_of_silent (e := .rsp r.code r.data)
    (t := takeResponse r { s with cur := c, rsp := some r, program := w :: ws, events := es }) rfl rfl rfl)
  refine ⟨_, ⟨htaken.trans (sameBytes_of_silent (e := .cmd w) rfl rfl rfl), _, rfl⟩, hc, fun u' hexec ms => ?_⟩
  exact (after_cons_of_next htake _).trans (after_cons_of_next ((runMove_issue hc rfl hdec).trans hexec) ms)

/-- At the end of `TX` the exchange starts its read; the parts end `TR_WRITE`, and two host moves take the response
and start the read. -/
theorem after_partsRead {a : Byte} {s t : State} (h : SendsAlongside a s t) (hp : s.phase = .tx)
    (hi : s.txi = s.txlen) :
    ∃ s' t', runMove .seq s = .next s' ∧ (∀ ms, after (.seq :: .host :: .host :: ms) t = after ms t') ∧
      ReadsAlongside [commandWord 0x21#8 a 0] s' t' := by
  obtain ⟨hinv, hcur, hbytes, es, rfl⟩ := h hp
  have hrst := hinv.rst_of_busy (by simp [hp])
  obtain ⟨-, hxmax, hcap, -⟩ := hinv.cfg
  have hcount : (BitVec.ofNat 8 s.cfg.xmax).toNat = s.cfg.xmax := by
    rw [BitVec.toNat_ofNat]
    omega
  obtain ⟨hwrite, -⟩ := sequencerEndsTransmission
    { s with cur := .write, rsp := none, program := readAndParse s.cfg.xmax a, events := es } hrst hp hi
  have hended : Alongside .none (some ⟨codeOk, 0#32⟩) (readAndParse s.cfg.xmax a) (endCommand s) { s with
      phase := .idle, cur := .none, rsp := some ⟨codeOk, 0#32⟩, program := readAndParse s.cfg.xmax a, events := es } :=
    ⟨hbytes, es, rfl⟩
  obtain ⟨u, ⟨hbytes', es', rfl⟩, hc, hrun⟩ := hended.takeAndIssue hrst rfl (decode_trRead _ _)
  have hread := hrun _ (exec_trRead_of_le hc _ (hcount.trans_le hxmax))
  refine ⟨_, _, runMove_seq_startRead hrst hp hi hcur,
    fun ms => (after_cons_of_next (hwrite rfl) _).trans (hread ms), hrst, .inl ⟨rfl, hcur, hbytes', es', ?_⟩⟩
  rw [hcount]
  rfl

/-- At the end the host takes the response of the read and issues the parse, which answers as the exchange has. -/
theorem after_partsParsed {a : Byte} {s t : State} (h : ReadsAlongside [commandWord 0x21#8 a 0] s t)
    (hp : s.phase = .idle) :
    ∃ v, after [.host, .host] t = .next v ∧ blockView v = blockView s ∧ v.rsp = s.rsp ∧ SameBytes s v := by
  obtain ⟨hrst, ⟨hrx, -⟩ | ⟨-, hcur, hparse, r, hst⟩⟩ := h
  · simp [hp] at hrx
  obtain ⟨u, ⟨hbytes, es, rfl⟩, hc, hrun⟩ := hst.takeAndIssue hrst hp (decode_prsRsp a 0)
  have hsame := respondParse_rsp_congr (t := s)
    (s := { s with cur := .none, rsp := none, program := [], events := es }) rfl
  obtain ⟨c, d, -, e⟩ := respondParse_answers { s with cur := .none, rsp := none, program := [], events := es }
  have hexec := exec_prsRsp hc a
  rw [e] at hexec hsame
  refine ⟨_, (hrun _ hexec []).trans (after_nil _), ?_, hsame.trans hparse.symm, hbytes⟩
  rw [← hcur]
  rfl

/-- Settles O44: the exchange runs alongside `TR_WRITE` up to the last byte emitted and alongside `TR_READ` from the
start of the read on, and the parse is the one the exchange has posted. -/
theorem xchgRefinedByParts : Obligations.XchgRefinedByParts := by
  intro s t u a b m1 m2 hinv hc hblock hsend hptx hi hrun hidle
  have hblock1 (m : Move) (hm : m ∈ m1) := hblock m (List.mem_append_left m2 hm)
  have hblock2 (m : Move) (hm : m ∈ m2) := hblock m (List.mem_append_right m1 hm)
  have hissue := runMove_issueXchg hc a b
  obtain ⟨begun, hbegin, hbegun⟩ := after_partsBegun hinv hc a b
  obtain ⟨sent, hsent, hsending⟩ := after_simulates (R := SendsAlongside a)
    (fun m hm _ _ _ h hs => sendsAlongside_step (hblock1 m hm) h hs) (fun _ _ h => h.withSchedule []) hbegun
    ((after_cons_of_next hissue m1).symm.trans hsend)
  obtain ⟨reading, reading', hstart, hstart', hreading⟩ := after_partsRead hsending hptx hi
  have hrest : after m2 reading = .next t := by
    rw [List.append_assoc, after_append_of_next hsend] at hrun
    exact (after_cons_of_next hstart m2).symm.trans hrun
  obtain ⟨ended, hended, hend⟩ := after_simulates (R := ReadsAlongside _)
    (fun m hm _ _ _ h hs => readsAlongside_step (hblock2 m hm) h hs) (fun _ _ h => h.withSchedule []) hreading hrest
  obtain ⟨v, hparse, hview, hrsp, hemitted, hreceived⟩ := after_partsParsed hend hidle
  refine ⟨v, ?_, hview, hrsp, hemitted, hreceived⟩
  simp only [List.append_assoc]
  exact (hbegin _).trans ((after_append_of_next hsent _).trans ((hstart' _).trans
    ((after_append_of_next hended _).trans hparse)))

end Sys2Proof.Machine
end

section
/-!
SUPPORT. Proofs of the statements of 44_system.md: the two system commands (R170, R172), and the fields of the status
word read back (10_state.md R37).
-/

namespace Sys2Proof.Machine

open Sys2Proof

/-! ### The two commands -/

theorem decode_nop (x : Byte) (y : Half) : decode (.word (commandWord 0x00#8 x y)) = .ok .nop := by
  simp only [decode, decodeCommand, commandWord_op]

theorem decode_rdStat (x : Byte) (y : Half) : decode (.word (commandWord 0x01#8 x y)) = .ok .rdStat := by
  simp only [decode, decodeCommand, commandWord_op]

theorem exec_nop {s : State} (hc : canAccept s = true) : exec .nop s = .next (respond codeOk 0#32 s) := by
  unfold exec execNop
  exact accept_ready hc _

theorem exec_rdStat {s : State} (hc : canAccept s = true) :
    exec .rdStat s = .next (respond codeOk (statWord s) s) := by
  unfold exec execRdStat
  exact accept_ready hc _

/-- Settles O1: `NOP` is decoded whatever its operand fields are, and does nothing but respond. -/
theorem nopRespondsOk : Obligations.NopRespondsOk :=
  ⟨decode_nop, fun _ hc => exec_nop hc⟩

/-! ### The status word (R37) -/

/-- The lengths fit 8-bit fields: the capacities of R9 are 8-bit numbers. -/
theorem lengths_lt_256 {s : State} (h : Inv s) : s.rlen < 256 ∧ s.txlen < 256 := by
  obtain ⟨-, -, hrxcap, -, htxcap, -⟩ := h.cfg
  obtain ⟨htxbuf, hrbuf, -⟩ := h.mem
  rw [rlen_eq_length, txlen_eq_length]
  omega

/-- `RLEN` is the last part of the status word. -/
theorem statWord_rlen (s : State) : (statWord s).extractLsb' 0 8 = BitVec.ofNat 8 s.rlen :=
  BitVec.extractLsb'_append_eq_right

/-- `TXLEN` stands above `RLEN`. -/
theorem statWord_txlen (s : State) : (statWord s).extractLsb' 8 8 = BitVec.ofNat 8 s.txlen :=
  (BitVec.extractLsb'_append_eq_of_le (w := 8) (by decide)).trans BitVec.extractLsb'_append_eq_right

/-- `RXPEND` stands above the two lengths. -/
theorem statWord_rxpend (s : State) : (statWord s).extractLsb' 16 8 = BitVec.ofNat 8 (min s.rxq.length 255) :=
  (BitVec.extractLsb'_append_eq_of_le (w := 8) (by decide)).trans <|
    (BitVec.extractLsb'_append_eq_of_le (w := 8) (by decide)).trans BitVec.extractLsb'_append_eq_right

/-- `TMO` is bit 24, above the three 8-bit fields. -/
theorem statWord_tmo (s : State) : (statWord s).getLsbD 24 = s.tmo := by
  simp only [statWord, BitVec.getLsbD_append]
  simp

/-- `OVR` is bit 25. -/
theorem statWord_ovr (s : State) : (statWord s).getLsbD 25 = s.ovr := by
  simp only [statWord, BitVec.getLsbD_append]
  simp

/-- The reserved bits above `OVR` are 0: two flags and three fields of 8 bits stand below them. -/
theorem statWord_reserved (s : State) : (statWord s).extractLsb' 26 6 = 0#6 :=
  (BitVec.extractLsb'_append_eq_of_le (w := 8) (by decide)).trans <|
    (BitVec.extractLsb'_append_eq_of_le (w := 8) (by decide)).trans <|
      (BitVec.extractLsb'_append_eq_of_le (w := 8) (by decide)).trans <|
        (BitVec.extractLsb'_append_eq_of_le (w := 1) (by decide)).trans BitVec.extractLsb'_append_eq_left

/-- Settles O2: the word is built of the fields of `STAT`; by the invariant no length exceeds its capacity, so the
8-bit fields cut nothing off. -/
theorem rdStatReturnsStatus : Obligations.RdStatReturnsStatus := by
  refine ⟨decode_rdStat, fun s hinv hc => ?_⟩
  obtain ⟨hrlen, htxlen⟩ := lengths_lt_256 hinv
  have hrxpend : min s.rxq.length 255 < 2 ^ 8 := by omega
  refine ⟨statWord s, exec_rdStat hc, ?_, ?_, ?_, statWord_tmo s, statWord_ovr s, statWord_reserved s⟩
  · rw [statWord_rlen, BitVec.toNat_ofNat, Nat.mod_eq_of_lt hrlen]
  · rw [statWord_txlen, BitVec.toNat_ofNat, Nat.mod_eq_of_lt htxlen]
  · rw [statWord_rxpend, BitVec.toNat_ofNat, Nat.mod_eq_of_lt hrxpend]

end Sys2Proof.Machine
end

section
/-!
SUPPORT. Proofs of the statements of 60_exceptions.md: no step stops the machine (R196), and `BAD_OPERAND` is answered in
exactly the four cases of R182.
-/

namespace Sys2Proof.Machine

open Sys2Proof

/-- Settles O47: a step is the move of one agent, and every move of every agent has a next state. -/
theorem everyStepAnswersNextState : Obligations.EveryStepAnswersNextState := by
  intro s
  obtain ⟨ms, n, e⟩ := step_cases s
  obtain ⟨t, et, -⟩ := runMove_moveStep (takeMove s).1 { s with schedule := ms, draws := n }
  exact ⟨t, e.trans et⟩

/-! ### The four cases of `BAD_OPERAND` (R182) -/

/-- The instruction and its operand are one of the four cases of R182. -/
def BadOperandCase (s : State) : Instr → Prop
  | .tbRd a => s.txlen ≤ a.toNat
  | .rbRd a => s.rlen ≤ a.toNat
  | .txPut _ => s.txlen = s.cfg.txcap
  | .trRead a _ => s.cfg.rxcap < a.toNat
  | _ => False

theorem badOperandCase_iff (i : Instr) (s : State) : BadOperandCase s i ↔
    (∃ a : Byte, i = .tbRd a ∧ s.txlen ≤ a.toNat) ∨ (∃ a : Byte, i = .rbRd a ∧ s.rlen ≤ a.toNat) ∨
    (∃ a, i = .txPut a ∧ s.txlen = s.cfg.txcap) ∨
    (∃ (a : Byte) (b : Half), i = .trRead a b ∧ s.cfg.rxcap < a.toNat) := by
  cases i <;> simp [BadOperandCase]

/-- The response port holds `BAD_OPERAND`. -/
def AnswersBadOperand (s : State) : Prop := ∃ r, s.rsp = some r ∧ r.code = codeBadOperand

theorem answersBadOperand_respond (c : Byte) (d : Word) (s : State) :
    AnswersBadOperand (respond c d s) ↔ c = codeBadOperand := by
  simp [AnswersBadOperand]

theorem not_answersBadOperand_of_ok (d : Word) (s : State) : ¬ AnswersBadOperand (respond codeOk d s) :=
  (answersBadOperand_respond _ d s).not.2 (by decide)

theorem not_answersBadOperand_of_none {s : State} (h : s.rsp = none) : ¬ AnswersBadOperand s := by
  simp [AnswersBadOperand, h]

theorem not_answersBadOperand_respondParse (s : State) : ¬ AnswersBadOperand (respondParse s) := by
  obtain ⟨-, e⟩ | ⟨_, _, _, _, -, -, -, -, -, e⟩ := respondParse_cases s <;> rw [e]
  · exact (answersBadOperand_respond _ _ s).not.2 (by decide)
  · exact not_answersBadOperand_of_ok _ s

theorem not_answersBadOperand_respondByte {buf : List Byte} {a : Byte} (h : ¬ buf.length ≤ a.toNat) (s : State) :
    ¬ AnswersBadOperand (respondByte buf a s) := by
  obtain ⟨_, -, e⟩ | ⟨hle, -⟩ := respondByte_cases buf a s
  · rw [e]
    exact not_answersBadOperand_of_ok _ s
  · exact absurd hle h

/-- What the line delivers posts no response. -/
theorem not_answersBadOperand_carry {s : State} (h : s.rsp = none) (bytes : List Byte) :
    ¬ AnswersBadOperand (carry bytes s) := by
  obtain ⟨-, -, -, hrsp⟩ := sameCommand_carry bytes s
  exact not_answersBadOperand_of_none (hrsp.trans h)

/-- In each of the four cases the accept step is the error response alone. -/
theorem exec_of_badOperandCase {i : Instr} {s : State} (hc : canAccept s = true) (h : BadOperandCase s i) :
    exec i s = .next (respond codeBadOperand 0#32 s) := by
  cases i with
  | tbRd a => exact (exec_tbRd hc a).trans (congrArg _ (respondByte_of_length_le h s))
  | rbRd a => exact (exec_rbRd hc a).trans (congrArg _ (respondByte_of_length_le h s))
  | txPut a => exact exec_txPut_of_full hc a h
  | trRead a b => exact exec_trRead_of_gt hc b h
  | _ => cases h

/-- In every other case the response is another one, or none is posted yet. The invariant is needed for `TX_PUT`: a
buffer whose length is not its capacity has room. -/
theorem exec_of_not_badOperandCase {i : Instr} {s : State} (hinv : Inv s) (hc : canAccept s = true)
    (h : ¬ BadOperandCase s i) : ∃ t, exec i s = .next t ∧ ¬ AnswersBadOperand t := by
  obtain ⟨-, hrsp, -⟩ := (canAccept_iff s).1 hc
  cases i with
  | nop => exact ⟨_, exec_nop hc, not_answersBadOperand_of_ok _ _⟩
  | rdStat => exact ⟨_, exec_rdStat hc, not_answersBadOperand_of_ok _ _⟩
  | crcInit => exact ⟨_, exec_crcInit hc, not_answersBadOperand_of_ok _ _⟩
  | crcByte a => exact ⟨_, exec_crcByte hc a, not_answersBadOperand_of_ok _ _⟩
  | crcRd => exact ⟨_, exec_crcRd hc, not_answersBadOperand_of_ok _ _⟩
  | bldReq a b => exact ⟨_, exec_bldReq hc a b, not_answersBadOperand_of_ok _ _⟩
  | prsRsp a => exact ⟨_, exec_prsRsp hc a, not_answersBadOperand_respondParse s⟩
  | tbRd a => exact ⟨_, exec_tbRd hc a, not_answersBadOperand_respondByte h s⟩
  | rbRd a => exact ⟨_, exec_rbRd hc a, not_answersBadOperand_respondByte h s⟩
  | txClr => exact ⟨_, exec_txClr hc, not_answersBadOperand_of_ok _ _⟩
  | txPut a =>
    obtain ⟨htx, -, -⟩ := hinv.mem
    exact ⟨_, exec_txPut_of_lt hc a (Nat.lt_of_le_of_ne htx h), not_answersBadOperand_of_ok _ _⟩
  | trFlush => exact ⟨_, exec_trFlush hc, not_answersBadOperand_of_ok _ _⟩
  | trWrite => exact ⟨_, exec_trWrite hc, not_answersBadOperand_of_none hrsp⟩
  | trRead a b => exact ⟨_, exec_trRead_of_le hc b (Nat.le_of_not_lt h), not_answersBadOperand_of_none hrsp⟩
  | xchg a b => exact ⟨_, exec_xchg hc a b, not_answersBadOperand_of_none hrsp⟩
  | reqFrame a b c => exact ⟨_, rfl, not_answersBadOperand_carry hrsp _⟩
  | rspFrame a b c d e => exact ⟨_, rfl, not_answersBadOperand_carry hrsp _⟩
  | serialChar v => exact ⟨carry [v] s, rfl, not_answersBadOperand_carry hrsp [v]⟩

/-- Settles O52: in the four cases the accept step is the error response alone, in every other it answers no
`BAD_OPERAND`. -/
theorem badOperandInExactlyFourCases : Obligations.BadOperandInExactlyFourCases := by
  intro i s t hinv hc he
  rw [← badOperandCase_iff]
  by_cases h : BadOperandCase s i
  · obtain rfl : respond codeBadOperand 0#32 s = t :=
      Host.Outcome.next.inj ((exec_of_badOperandCase hc h).symm.trans he)
    exact ⟨iff_of_true ⟨_, rfl, rfl⟩ h, fun _ => rfl⟩
  · obtain ⟨u, eu, hu⟩ := exec_of_not_badOperandCase hinv hc h
    obtain rfl : u = t := Host.Outcome.next.inj (eu.symm.trans he)
    exact ⟨iff_of_false hu h, fun hbad => absurd hbad hu⟩

end Sys2Proof.Machine
end

section
/-!
SUPPORT. Proofs of the statements of 70_reset_and_hazards.md: while `rst` is asserted no agent's move changes the block
(R200), and what the block answers after reset (R201).
-/

namespace Sys2Proof.Machine

open Sys2Proof

/-! ### While `rst` is asserted (R200) -/

theorem seqStep_reset {s : State} (h : s.rst = true) : seqStep s = s := if_pos h

theorem tickStep_reset {s : State} (h : s.rst = true) : tickStep s = s := if_pos h

/-- The first byte carried is not received; the others stand on the line. -/
theorem carry_reset (bytes : List Byte) {s : State} (h : s.rst = true) :
    ∃ w, carry bytes s = { s with wire := w } := by
  obtain e | ⟨v, w, e⟩ := carry_cases bytes s
  · exact ⟨s.wire, e⟩
  · exact ⟨w, e.trans (lineStep_reset v h)⟩

/-- The byte that arrives is not received; those behind it stay on the line. -/
theorem wireStep_reset {s : State} (h : s.rst = true) : ∃ w, wireStep s = { s with wire := w } := by
  rw [wireStep_eq_carry]
  exact carry_reset s.wire (s := { s with wire := [] }) h

/-- Settles O29: `rst` holds the host, the sequencer and the tick, and what the line delivers is not received. -/
theorem assertedResetStopsAgents : Obligations.AssertedResetStopsAgents := by
  refine ⟨fun s m h hrelease hreset => ?_, fun _ => rfl⟩
  cases m with
  | host => exact ⟨s.draws, s.wire, hostMove_reset h⟩
  | seq => exact ⟨s.draws, s.wire, congrArg Host.Outcome.next (seqStep_reset h)⟩
  | line item =>
    obtain ⟨bytes, n, hmove⟩ := lineMove_cases item s
    obtain ⟨w, hcarry⟩ := carry_reset bytes (s := { s with draws := n }) h
    exact ⟨n, w, hmove.trans (congrArg Host.Outcome.next hcarry)⟩
  | wire =>
    obtain ⟨w, hwire⟩ := wireStep_reset h
    exact ⟨s.draws, w, congrArg Host.Outcome.next hwire⟩
  | tick => exact ⟨s.draws, s.wire, congrArg Host.Outcome.next (tickStep_reset h)⟩
  | reset => exact absurd rfl hreset
  | release => exact absurd rfl hrelease

/-! ### After reset (R201) -/

theorem canAccept_stateReset : canAccept State.reset = true := (canAccept_iff State.reset).2 ⟨rfl, rfl, rfl⟩

/-- No flag is set and no byte is counted (R172). -/
theorem statWord_stateReset : statWord State.reset = 0x00000000#32 := rfl

/-- Settles O28: the status word is zero, `crc` is its reset value, and the empty response buffer is too short to
parse. -/
theorem resetStateAndFirstAnswers : Obligations.ResetStateAndFirstAnswers := by
  have hc := canAccept_stateReset
  refine ⟨by decide, hc, ?rdStat, ?crcRd, fun a => ?prsRsp⟩
  case rdStat =>
    rw [exec_rdStat hc, statWord_stateReset]
    rfl
  case crcRd => exact exec_crcRd hc
  case prsRsp => exact (exec_prsRsp hc a).trans (congrArg _ (respondParse_of_short (by decide)))

end Sys2Proof.Machine
end
